-- ==== Sys2Proof/Word.lean ====
section
/-! DEFINITION. The words of the machine (spec/00_scope.md R2, R5, R6).

The notation of rule R5 is Lean's own: `uint v` is `v.toNat`, `sint v` is `v.toInt`, `bv_N(n)` is `BitVec.ofInt N n`
(or `BitVec.ofNat N n` for a natural number), `sext_N` is `BitVec.signExtend N`, `zext_N` is `BitVec.zeroExtend N`,
`v[hi:lo]` is `v.extractLsb' lo (hi - lo + 1)` and the concatenation of a and b is `a ++ b`, a in the high bits. -/

namespace Sys2Proof

/-- One byte of the instruction memory. -/
abbrev Byte := BitVec 8

/-- One 32-bit element (lane) of a general register (R2: ELEN = 32). -/
abbrev Elem := BitVec 32

/-- One instruction word (R35: ILEN = 32). -/
abbrev InstrWord := BitVec 32

/-- The value of a general register (R2: XLEN = 64). -/
abbrev Word := BitVec 64

/-- A byte address (R23: 64 bits). -/
abbrev Addr := BitVec 64

/-- The number of a general register, 0 to 31 (R11, R37: all 32 are legal everywhere). -/
abbrev Reg := Fin 32

end Sys2Proof
end

