-- ==== Sys2Proof/Machine/Lanes.lean ====
section
/-! DEFINITION. The element-level operations (spec/40_simd32_lane_operations.md R50 to R57).

Each function is written as its rule defines it; the equivalent forms the rules derive are stated apart. The
expressions the source's text lost minus signs in are read as spec/90_conflicts.md C1 to C5 read them (assumption log
entry 19). -/

namespace Sys2Proof.Machine

/-- `W(v, 1) = v[63:32]` (R6, R50). -/
def upper (v : Word) : Elem := v.extractLsb' 32 32

/-- `W(v, 0) = v[31:0]` (R6, R50). Which half is element 0 changes no result (assumption log entry 14). -/
def lower (v : Word) : Elem := v.extractLsb' 0 32

/-- The register value of two elements, element 1 in the high half (R50). -/
def pack (hi lo : Elem) : Word := hi ++ lo

/-- `lanes(f, v)` (R50): one function on both elements. -/
def lanes (f : Elem → Elem) (v : Word) : Word := pack (f (upper v)) (f (lower v))

/-- R51: left shift, the bits that leave the top discarded. -/
def sllLane (w : Elem) (sa : Nat) : Elem := BitVec.ofNat 32 (w.toNat * 2 ^ sa)

/-- R52: arithmetic right shift. -/
def sraLane (w : Elem) (sa : Nat) : Elem :=
  if sa = 0 then w else (w.extractLsb' sa (32 - sa)).signExtend 32

/-- R53: rounding arithmetic right shift; the 33-bit t keeps one bit more than the plain shift, 1 is added to it, and
the upper 32 bits are the result (90_conflicts.md C5, C12). -/
def srauLane (w : Elem) (sa : Nat) : Elem :=
  if sa = 0 then w
  else
    let t : BitVec 33 := (w.extractLsb' (sa - 1) (33 - sa)).signExtend 33
    let r : BitVec 33 := BitVec.ofInt 33 (t.toInt + 1)
    r.extractLsb' 1 32

/-- R54: logical right shift. -/
def srlLane (w : Elem) (sa : Nat) : Elem :=
  if sa = 0 then w else (w.extractLsb' sa (32 - sa)).zeroExtend 32

/-- R55: rounding logical right shift. -/
def srluLane (w : Elem) (sa : Nat) : Elem :=
  if sa = 0 then w
  else
    let t : BitVec 33 := (w.extractLsb' (sa - 1) (33 - sa)).zeroExtend 33
    let r : BitVec 33 := BitVec.ofNat 33 (t.toNat + 1)
    r.extractLsb' 1 32

/-- R56: left shift with signed saturation, and whether the element saturated (90_conflicts.md C1, C2). -/
def ksllLane (w : Elem) (sa : Nat) : Elem × Bool :=
  let p : Int := w.toInt * 2 ^ sa
  if p > 2 ^ 31 - 1 then (0x7FFFFFFF#32, true)
  else if p < -(2 ^ 31) then (0x80000000#32, true)
  else (BitVec.ofInt 32 p, false)

/-- R57: a negative amount shifts right arithmetically by its absolute value, -32 acting as -31, rounding when u; any
other amount is R56's saturating left shift (90_conflicts.md C3, C4, C13). -/
def kslraLane (w : Elem) (amt : Int) (u : Bool) : Elem × Bool :=
  if amt < 0 then
    let sa : Nat := if amt = -32 then 31 else (-amt).toNat
    (if u then srauLane w sa else sraLane w sa, false)
  else ksllLane w amt.toNat

end Sys2Proof.Machine
end

