-- ==== Sys2Proof/Syntax.lean ====
section
/-! DEFINITION. The syntax of the 14 instructions (spec/00_scope.md R1, R3; spec/30_encoding.md R36, R46).

Operand order is the assembler's (R47): destination, element source, then the amount (a register, or an integer
immediate whose range 0 to 31 WellFormed checks). -/

namespace Sys2Proof

/-- The 14 mnemonics, in the source's order (R1). -/
inductive Mnemonic where
  | kslli32 | slli32 | srai32 | srai32u | srli32 | srli32u
  | ksll32 | kslra32 | kslra32u | sll32 | sra32 | sra32u | srl32 | srl32u
deriving DecidableEq, Repr

/-- An instruction: one constructor per row of spec/opcode_table.json. -/
inductive Instr where
  | kslli32 (rd rs1 : Reg) (imm5u : Nat)
  | slli32 (rd rs1 : Reg) (imm5u : Nat)
  | srai32 (rd rs1 : Reg) (imm5u : Nat)
  | srai32u (rd rs1 : Reg) (imm5u : Nat)
  | srli32 (rd rs1 : Reg) (imm5u : Nat)
  | srli32u (rd rs1 : Reg) (imm5u : Nat)
  | ksll32 (rd rs1 rs2 : Reg)
  | kslra32 (rd rs1 rs2 : Reg)
  | kslra32u (rd rs1 rs2 : Reg)
  | sll32 (rd rs1 rs2 : Reg)
  | sra32 (rd rs1 rs2 : Reg)
  | sra32u (rd rs1 rs2 : Reg)
  | srl32 (rd rs1 rs2 : Reg)
  | srl32u (rd rs1 rs2 : Reg)
deriving DecidableEq, Repr

/-- The mnemonic of an instruction. -/
def Instr.mnemonic : Instr → Mnemonic
  | .kslli32 _ _ _ => .kslli32
  | .slli32 _ _ _ => .slli32
  | .srai32 _ _ _ => .srai32
  | .srai32u _ _ _ => .srai32u
  | .srli32 _ _ _ => .srli32
  | .srli32u _ _ _ => .srli32u
  | .ksll32 _ _ _ => .ksll32
  | .kslra32 _ _ _ => .kslra32
  | .kslra32u _ _ _ => .kslra32u
  | .sll32 _ _ _ => .sll32
  | .sra32 _ _ _ => .sra32
  | .sra32u _ _ _ => .sra32u
  | .srl32 _ _ _ => .srl32
  | .srl32u _ _ _ => .srl32u

/-- The destination register Rd. -/
def Instr.rd : Instr → Reg
  | .kslli32 rd _ _ => rd
  | .slli32 rd _ _ => rd
  | .srai32 rd _ _ => rd
  | .srai32u rd _ _ => rd
  | .srli32 rd _ _ => rd
  | .srli32u rd _ _ => rd
  | .ksll32 rd _ _ => rd
  | .kslra32 rd _ _ => rd
  | .kslra32u rd _ _ => rd
  | .sll32 rd _ _ => rd
  | .sra32 rd _ _ => rd
  | .sra32u rd _ _ => rd
  | .srl32 rd _ _ => rd
  | .srl32u rd _ _ => rd

/-- The element source Rs1. -/
def Instr.rs1 : Instr → Reg
  | .kslli32 _ rs1 _ => rs1
  | .slli32 _ rs1 _ => rs1
  | .srai32 _ rs1 _ => rs1
  | .srai32u _ rs1 _ => rs1
  | .srli32 _ rs1 _ => rs1
  | .srli32u _ rs1 _ => rs1
  | .ksll32 _ rs1 _ => rs1
  | .kslra32 _ rs1 _ => rs1
  | .kslra32u _ rs1 _ => rs1
  | .sll32 _ rs1 _ => rs1
  | .sra32 _ rs1 _ => rs1
  | .sra32u _ rs1 _ => rs1
  | .srl32 _ rs1 _ => rs1
  | .srl32u _ rs1 _ => rs1

/-- The third operand: an immediate amount or an amount register (R36). -/
inductive Amount where
  | imm (n : Nat)
  | reg (rs2 : Reg)
deriving DecidableEq, Repr

/-- The third operand of an instruction. -/
def Instr.amount : Instr → Amount
  | .kslli32 _ _ n => .imm n
  | .slli32 _ _ n => .imm n
  | .srai32 _ _ n => .imm n
  | .srai32u _ _ n => .imm n
  | .srli32 _ _ n => .imm n
  | .srli32u _ _ n => .imm n
  | .ksll32 _ _ r => .reg r
  | .kslra32 _ _ r => .reg r
  | .kslra32u _ _ r => .reg r
  | .sll32 _ _ r => .reg r
  | .sra32 _ _ r => .reg r
  | .sra32u _ _ r => .reg r
  | .srl32 _ _ r => .reg r
  | .srl32u _ _ r => .reg r

end Sys2Proof
end

