-- ==== Sys2Proof/WellFormed.lean ====
section
/-! DEFINITION. Which instructions have an encoding (spec/30_encoding.md R37, R38, R44, R47).

Register numbers are 0 to 31 by their type and all are legal; the one check is on the six immediate forms: an
immediate outside 0 to 31 has no encoding (the field has five bits). -/

namespace Sys2Proof

/-- The immediate range of R38 and R47. -/
abbrev immInRange (n : Nat) : Prop := n < 32

/-- An instruction that has an encoding. -/
def Instr.wf (i : Instr) : Bool :=
  match i.amount with
  | .imm n => decide (immInRange n)
  | .reg _ => true

/-- `Instr.wf` as a proposition that `decide` runs on. -/
abbrev Instr.WellFormed (i : Instr) : Prop := i.wf = true

end Sys2Proof
end

