-- ==== Sys2Proof/Decode.lean ====
section
/-! DEFINITION. Decoding and encoding (spec/30_encoding.md R35 to R45, R47).

The decoder reads the `match` column of rule R41's table, the encoder its `funct7` column, so that their agreement
checks one column against the other. Both columns are UNVERIFIED: the spec takes them from general knowledge of the
0.9.x drafts (assumption log entry 11). -/

namespace Sys2Proof

/-- One row of the encoding table ENC (R4, R41): a mnemonic and its `match` word under the common mask. -/
structure EncRow where
  mnemonic : Mnemonic
  matchWord : InstrWord
deriving DecidableEq, Repr

/-- The mask of every row (R41): bits 31:25, 14:12 and 6:0. -/
def encMask : InstrWord := 0xFE00707F#32

/-- The default encoding table ENC: rule R41's rows, in its order. UNVERIFIED (assumption log entry 11). -/
def encTable : List EncRow :=
  [ ⟨.sra32, 0x50002077#32⟩,
    ⟨.srl32, 0x52002077#32⟩,
    ⟨.sll32, 0x54002077#32⟩,
    ⟨.kslra32, 0x56002077#32⟩,
    ⟨.sra32u, 0x60002077#32⟩,
    ⟨.srl32u, 0x62002077#32⟩,
    ⟨.ksll32, 0x64002077#32⟩,
    ⟨.kslra32u, 0x66002077#32⟩,
    ⟨.srai32, 0x70002077#32⟩,
    ⟨.srli32, 0x72002077#32⟩,
    ⟨.slli32, 0x74002077#32⟩,
    ⟨.srai32u, 0x80002077#32⟩,
    ⟨.srli32u, 0x82002077#32⟩,
    ⟨.kslli32, 0x84002077#32⟩ ]

/-- `rd = word[11:7]` (R37). -/
def rdField (w : InstrWord) : Reg := (w.extractLsb' 7 5).toFin

/-- `rs1 = word[19:15]` (R37). -/
def rs1Field (w : InstrWord) : Reg := (w.extractLsb' 15 5).toFin

/-- `rs2 = word[24:20]` (R37). -/
def rs2Field (w : InstrWord) : Reg := (w.extractLsb' 20 5).toFin

/-- `imm5u = word[24:20]`, unsigned, not scaled (R38). -/
def imm5uField (w : InstrWord) : Nat := (w.extractLsb' 20 5).toNat

/-- The instruction of a mnemonic with the operand fields of a word (R36, R42): the six immediate forms take bits
24:20 as imm5u, the eight register forms as rs2. -/
def Mnemonic.fromWord (m : Mnemonic) (w : InstrWord) : Instr :=
  match m with
  | .kslli32 => .kslli32 (rdField w) (rs1Field w) (imm5uField w)
  | .slli32 => .slli32 (rdField w) (rs1Field w) (imm5uField w)
  | .srai32 => .srai32 (rdField w) (rs1Field w) (imm5uField w)
  | .srai32u => .srai32u (rdField w) (rs1Field w) (imm5uField w)
  | .srli32 => .srli32 (rdField w) (rs1Field w) (imm5uField w)
  | .srli32u => .srli32u (rdField w) (rs1Field w) (imm5uField w)
  | .ksll32 => .ksll32 (rdField w) (rs1Field w) (rs2Field w)
  | .kslra32 => .kslra32 (rdField w) (rs1Field w) (rs2Field w)
  | .kslra32u => .kslra32u (rdField w) (rs1Field w) (rs2Field w)
  | .sll32 => .sll32 (rdField w) (rs1Field w) (rs2Field w)
  | .sra32 => .sra32 (rdField w) (rs1Field w) (rs2Field w)
  | .sra32u => .sra32u (rdField w) (rs1Field w) (rs2Field w)
  | .srl32 => .srl32 (rdField w) (rs1Field w) (rs2Field w)
  | .srl32u => .srl32u (rdField w) (rs1Field w) (rs2Field w)

/-- The row of a table that a word matches (R42: at most one does). -/
def matchRow (enc : List EncRow) (w : InstrWord) : Option EncRow :=
  enc.find? fun r => w &&& encMask == r.matchWord

/-- Decoding one word by an encoding table (R42): none is a word that matches no row (R43). -/
def decodeWith (enc : List EncRow) (w : InstrWord) : Option Instr :=
  (matchRow enc w).map fun r => r.mnemonic.fromWord w

/-- Decoding one word by the table of rule R41. -/
def decodeWord (w : InstrWord) : Option Instr := decodeWith encTable w

/-- Why bytes are no instruction. -/
inductive DecodeError where
  /-- Fewer than the four bytes of an instruction (R35: there is no other length). -/
  | truncated (present : Nat)
  /-- The word matches none of the 14 rows (R43). -/
  | notAdmitted (w : InstrWord)
deriving DecidableEq, Repr

/-- The word of four bytes, the first at the lowest address and least significant (20_memory.md R25). -/
def wordOfBytes (b0 b1 b2 b3 : Byte) : InstrWord := b3 ++ b2 ++ b1 ++ b0

/-- Byte k of a word in memory order, k = 0 to 3 (20_memory.md R25). -/
def wordByte (w : InstrWord) (k : Nat) : Byte := w.extractLsb' (8 * k) 8

/-- The four bytes of a word in memory order. -/
def bytesOfWord (w : InstrWord) : List Byte := [wordByte w 0, wordByte w 1, wordByte w 2, wordByte w 3]

/-- Decoding a list of bytes: the instruction at its head and the bytes after it, or the reason there is none. -/
def decode : List Byte → Except DecodeError (Instr × List Byte)
  | b0 :: b1 :: b2 :: b3 :: rest =>
    match decodeWord (wordOfBytes b0 b1 b2 b3) with
    | some i => .ok (i, rest)
    | none => .error (.notAdmitted (wordOfBytes b0 b1 b2 b3))
  | bs => .error (.truncated bs.length)

/-- The `funct7` of each mnemonic: rule R41's binary column. UNVERIFIED (assumption log entry 11). -/
def Mnemonic.funct7 : Mnemonic → BitVec 7
  | .sra32 => 0b0101000#7
  | .srl32 => 0b0101001#7
  | .sll32 => 0b0101010#7
  | .kslra32 => 0b0101011#7
  | .sra32u => 0b0110000#7
  | .srl32u => 0b0110001#7
  | .ksll32 => 0b0110010#7
  | .kslra32u => 0b0110011#7
  | .srai32 => 0b0111000#7
  | .srli32 => 0b0111001#7
  | .slli32 => 0b0111010#7
  | .srai32u => 0b1000000#7
  | .srli32u => 0b1000001#7
  | .kslli32 => 0b1000010#7

/-- Bits 24:20 of an instruction: rs2, or imm5u (R36). -/
def Amount.field : Amount → BitVec 5
  | .imm n => BitVec.ofNat 5 n
  | .reg r => BitVec.ofFin r

/-- The R-type layout of R36: funct7, rs2 or imm5u, rs1, funct3 = 010, rd, opcode = 1110111. -/
def layout (funct7 : BitVec 7) (t rs1 rd : BitVec 5) : InstrWord :=
  funct7 ++ t ++ rs1 ++ 0b010#3 ++ rd ++ 0b1110111#7

/-- The word of a well-formed instruction; none where the immediate has no encoding (R47). -/
def encode (i : Instr) : Option InstrWord :=
  if i.wf then some (layout i.mnemonic.funct7 i.amount.field (BitVec.ofFin i.rs1) (BitVec.ofFin i.rd)) else none

/-- The bytes of a well-formed instruction in memory order. -/
def encodeBytes (i : Instr) : Option (List Byte) := (encode i).map bytesOfWord

/-- The word that the low nbits bits of w make, every bit above them zero. -/
def tableWord (nbits w : Nat) : InstrWord := BitVec.ofNat 32 (w % 2 ^ nbits)

/-- The host's question: the instruction the decoder reads from a row's bits, laid out as bytes in memory order. -/
def decodeTableWord (nbits w : Nat) : Option Instr :=
  match decode (bytesOfWord (tableWord nbits w)) with
  | .ok (i, _) => some i
  | .error _ => none

end Sys2Proof
end

