-- ==== Sys2Proof/Config.lean ====
section
/-! DEFINITION. What an implementation fixes (spec/00_scope.md R4) and is not machine state.

XLEN, ELEN, NREGS and ILEN are the widths of Sys2Proof/Word.lean. The encoding table ENC, the one parameter of R4
that is replaceable and that rules depend on, is `encTable` of Sys2Proof/Decode.lean. The launch parameters (X_INIT,
OV_INIT, the launch pc, END_PC, IMEM) are arguments of `State.launch` (Sys2Proof/Machine/Ops.lean). No instruction
has an open result (R8), so there is no free value here. -/

namespace Sys2Proof

/-- P_VERSION (R4): the draft version of the extension, OPEN in the spec; no rule depends on it, and none here does
(assumption log entry 25). -/
opaque Config.pVersion : String

/-- OV_LOCATION (R4, R21): the CSR address that general knowledge gives the register holding OV. UNVERIFIED; recorded
for a reader who embeds the model in a fuller hart and used by no rule (assumption log entries 20, 25). -/
def Config.ovCsr : BitVec 12 := 0x009#12

/-- OV_LOCATION (R4, R21): the bit of that CSR. UNVERIFIED; used by no rule (assumption log entries 20, 25). -/
def Config.ovCsrBit : Nat := 0

end Sys2Proof
end

