-- ==== Sys2Proof/Machine/State.lean ====
section
/-! DEFINITION. The state, the ways a step can stop, and the state after reset (spec/10_state.md R10 to R24). -/

namespace Sys2Proof.Machine

/-- The instruction memory IMEM (R23): the bytes that hold code, by address, in rising order of address. A word is
in the domain of IMEM when its four bytes are listed (assumption log entry 2). -/
abbrev Memory := List Host.Cell

/-- What an address that is not listed reads as: nothing (20_memory.md R29: every other address holds nothing). -/
def Memory.unlisted : Option Byte := none

/-- The canonical form: addresses strictly rising and of 64 bits. An unlisted address reads as no value, so no listed
byte can equal what it would read as unlisted. -/
abbrev Memory.wf (m : Memory) : Prop :=
  (m.map Prod.fst).Pairwise (· < ·) ∧ ∀ c ∈ m, c.1 < 2 ^ 64

/-- The state of the hart. R10's triple is `x`, `pc`, `ov`; `imem` and `endPc` are R10's parameters IMEM and END_PC,
carried here because the host's step takes one state; no step changes them (assumption log entry 1). -/
structure State where
  /-- The general registers x[0] to x[31] (R11). x[0] is read and written through `readReg` and `writeReg` only,
  which hardwire it to zero (R12; assumption log entry 28). -/
  x : Vector Word 32
  /-- The program counter (R15). -/
  pc : Addr
  /-- The OV flag (R18), a bare bit (R21; assumption log entry 20). -/
  ov : Bool
  /-- The instruction memory IMEM (R23), fixed for the run (20_memory.md R33). -/
  imem : Memory
  /-- The address END_PC at which a run ends (70_reset_and_hazards.md R115). -/
  endPc : Addr
deriving DecidableEq, Repr

/-- The machine stops without refusing anything. -/
inductive Fault where
  /-- Raised by `step` when pc = END_PC: the run is over and the state is final (70_reset_and_hazards.md R115). Not
  an error. Safe: a real hart would go on fetching (assumption log entry 9). -/
  | endOfRun
  /-- Raised by `step` when the word at pc is not in the domain of IMEM: the hart has no step
  (70_reset_and_hazards.md R114). Safe: a real hart might trap and go on. -/
  | stuck (pc : Addr)
  /-- Raised by `step` when pc is not a multiple of 4: outside the model (20_memory.md R27). Safe: a real hart might
  trap and go on (assumption log entry 10). -/
  | misalignedPc (pc : Addr)
deriving DecidableEq, Repr

/-- The model has no meaning for what it was asked to run. -/
inductive Refusal where
  /-- Raised by an arm of `exec` whose instruction has no meaning yet; no arm does. Safe. -/
  | notModelled (mnemonic : String)
  /-- Raised by `step` when the fetched word is none of the 14 instructions, with its address
  (30_encoding.md R43). Safe: a real hart may know the word. -/
  | notAdmitted (pc : Addr) (w : InstrWord)
deriving DecidableEq, Repr

/-- The state after reset. The spec fixes only x[0] = 0 (R24; 70_reset_and_hazards.md R110) and the alignment of pc
and END_PC (R111); every other value is a DESIGN CHOICE, unsafe to rest a claim on: x[1] to x[31] (assumption log
entry 4), OV (5), pc (6), END_PC (7). IMEM lists nothing (8). -/
def State.reset : State where
  x := Vector.replicate 32 0#64
  pc := 0#64
  ov := false
  imem := []
  endPc := 0xFFFFFFFFFFFFFFFC#64

end Sys2Proof.Machine
end

