-- ==== Sys2Proof/Machine/Ops.lean ====
section
/-! DEFINITION. The named operations over registers, the program counter and the instruction memory.

TAKING AN EXCEPTION has no operation here because the spec gives the machine none: no instruction raises one
(spec/60_exceptions.md R90), and there is no trap entry, no saved state, no vector, no mode change (R95) and no trap
return (R97). Where a real hart would trap, `step` is stuck or refuses (R92). -/

namespace Sys2Proof.Machine

/-- Read of x[r]; x[0] reads as zero always (10_state.md R12). -/
def State.readReg (s : State) (r : Reg) : Word := if r = 0 then 0#64 else s.x[r.val]

/-- Write of x[r]; a write to x[0] is discarded (10_state.md R12). -/
def State.writeReg (s : State) (r : Reg) (v : Word) : State :=
  if r = 0 then s else { s with x := s.x.set r.val v }

/-- `pc <- bv_64(uint(pc) + 4)`, wrapping modulo 2^64 (10_state.md R16, R17). -/
def State.advancePc (s : State) : State := { s with pc := s.pc + 4#64 }

/-- The byte of IMEM at an address, if the address is listed. -/
def Memory.read : Memory → Nat → Option Byte
  | [], _ => Memory.unlisted
  | (k, b) :: m, a => if a = k then some b else Memory.read m a

/-- The memory with one byte stored, in canonical form. No instruction stores (20_memory.md R26): the host loads IMEM
with it before a run. -/
def Memory.write : Memory → Nat → Byte → Memory
  | [], a, b => [(a, b)]
  | (k, c) :: m, a, b =>
    if a < k then (a, b) :: (k, c) :: m
    else if a = k then (a, b) :: m
    else (k, c) :: Memory.write m a b

/-- The address of byte k of the word at a. -/
def byteAddr (a : Addr) (k : Nat) : Nat := (a + BitVec.ofNat 64 k).toNat

/-- `MemRead(a, 4)` of the fetch (20_memory.md R25, R34): the little-endian word at a, or nothing where a is not in
the domain of IMEM. -/
def Memory.fetchWord (m : Memory) (a : Addr) : Option InstrWord :=
  match m.read (byteAddr a 0), m.read (byteAddr a 1), m.read (byteAddr a 2), m.read (byteAddr a 3) with
  | some b0, some b1, some b2, some b3 => some (wordOfBytes b0 b1 b2 b3)
  | _, _, _, _ => none

/-- The host's load of one word into IMEM before a run (20_memory.md R25; 60_exceptions.md R104). -/
def Memory.storeWord (m : Memory) (a : Addr) (w : InstrWord) : Memory :=
  (((m.write (byteAddr a 0) (wordByte w 0)).write (byteAddr a 1) (wordByte w 1)).write
    (byteAddr a 2) (wordByte w 2)).write (byteAddr a 3) (wordByte w 3)

/-- The host's load of a program: words at a, a + 4, and so on (70_reset_and_hazards.md R111). -/
def Memory.storeWords (m : Memory) (a : Addr) : List InstrWord → Memory
  | [] => m
  | w :: ws => (m.storeWord a w).storeWords (a + 4#64) ws

/-- `pc` is a multiple of 4 (10_state.md R17). -/
def aligned (a : Addr) : Bool := a &&& 3#64 == 0#64

/-- The greatest multiple of 4 not above an address. -/
def alignDown (a : Addr) : Addr := a &&& ~~~3#64

/-- The launch state the host hands over (60_exceptions.md R104; 70_reset_and_hazards.md R110, R111): every value is
the host's but x[0], which is zero. -/
def State.launch (x : Vector Word 32) (ov : Bool) (pc endPc : Addr) (imem : Memory) : State where
  x := x.set 0 0#64
  pc := pc
  ov := ov
  imem := imem
  endPc := endPc

/-- What the host reads after a run (60_exceptions.md R104; 70_reset_and_hazards.md R115): the registers and OV of a
final state, and nothing of a state that is not final. -/
def State.observe (s : State) : Option (Vector Word 32 × Bool) :=
  if s.pc = s.endPc then some (s.x, s.ov) else none

end Sys2Proof.Machine
end

