-- ==== Sys2Proof/Machine/Flags.lean ====
section
/-! DEFINITION. The OV update (spec/40_simd32_lane_operations.md R58; spec/10_state.md R18 to R20) and the two shapes
that every instruction has: one that leaves OV alone and one that may set it.

Both compute from the state before the write (spec/10_state.md R14), write x[rd], OV and pc together
(spec/60_exceptions.md R96) and answer a next state always (R90). -/

namespace Sys2Proof.Machine

/-- `if s1 = 1 or s0 = 1 then OV <- 1`, otherwise OV is not written (R58): OV is never cleared. -/
def State.setOvIf (s : State) (s1 s0 : Bool) : State := if s1 || s0 then { s with ov := true } else s

/-- `x[rd] <- lanes(f, x[rs1])` and `pc <- pc + 4` (R50): the shape of the ten instructions that leave OV alone. -/
def laneOp (f : Elem → Elem) (rd rs1 : Reg) (s : State) : Host.Outcome State Fault Refusal :=
  .next (s.writeReg rd (lanes f (s.readReg rs1))).advancePc

/-- The shape of the four saturating instructions: f answers each element's result and whether it saturated. -/
def satLaneOp (f : Elem → Elem × Bool) (rd rs1 : Reg) (s : State) : Host.Outcome State Fault Refusal :=
  let r1 := f (upper (s.readReg rs1))
  let r0 := f (lower (s.readReg rs1))
  .next ((s.writeReg rd (pack r1.1 r0.1)).setOvIf r1.2 r0.2).advancePc

end Sys2Proof.Machine
end

