-- ==== Sys2Proof/Machine/Operands.lean ====
section
/-! DEFINITION. The amount operand of every form (spec/30_encoding.md R38, R39, R40). -/

namespace Sys2Proof.Machine

/-- `sa = imm5u[4:0]` (R38), 0 to 31. The word's field has no other bits; of an instruction that is not well formed
the low five bits are taken (assumption log entry 18). -/
def immAmount (imm5u : Nat) : Nat := imm5u % 32

/-- `sa = uint(x[rs2][4:0])` (R39), 0 to 31; bits 63:5 are ignored. -/
def State.regAmount (s : State) (rs2 : Reg) : Nat := ((s.readReg rs2).extractLsb' 0 5).toNat

/-- `amt = sint(x[rs2][5:0])` (R40), -32 to 31; bits 63:6 are ignored (90_conflicts.md C8; assumption log
entry 27). -/
def State.signedAmount (s : State) (rs2 : Reg) : Int := ((s.readReg rs2).extractLsb' 0 6).toInt

end Sys2Proof.Machine
end

