-- ==== Sys2Proof/Machine/ShiftImmediate.lean ====
section
/-! DEFINITION. The six immediate-amount instructions (spec/41_simd32_shift_immediate.md R60 to R65). -/

namespace Sys2Proof.Machine

/-- KSLLI32 (R60): saturating left shift by the immediate; OV set if an element saturates. -/
def execKslli32 (rd rs1 : Reg) (imm5u : Nat) (s : State) : Host.Outcome State Fault Refusal :=
  satLaneOp (fun w => ksllLane w (immAmount imm5u)) rd rs1 s

/-- SLLI32 (R61): left shift by the immediate. -/
def execSlli32 (rd rs1 : Reg) (imm5u : Nat) (s : State) : Host.Outcome State Fault Refusal :=
  laneOp (fun w => sllLane w (immAmount imm5u)) rd rs1 s

/-- SRAI32 (R62): arithmetic right shift by the immediate. -/
def execSrai32 (rd rs1 : Reg) (imm5u : Nat) (s : State) : Host.Outcome State Fault Refusal :=
  laneOp (fun w => sraLane w (immAmount imm5u)) rd rs1 s

/-- SRAI32.u (R63): rounding arithmetic right shift by the immediate. -/
def execSrai32u (rd rs1 : Reg) (imm5u : Nat) (s : State) : Host.Outcome State Fault Refusal :=
  laneOp (fun w => srauLane w (immAmount imm5u)) rd rs1 s

/-- SRLI32 (R64): logical right shift by the immediate. -/
def execSrli32 (rd rs1 : Reg) (imm5u : Nat) (s : State) : Host.Outcome State Fault Refusal :=
  laneOp (fun w => srlLane w (immAmount imm5u)) rd rs1 s

/-- SRLI32.u (R65): rounding logical right shift by the immediate. -/
def execSrli32u (rd rs1 : Reg) (imm5u : Nat) (s : State) : Host.Outcome State Fault Refusal :=
  laneOp (fun w => srluLane w (immAmount imm5u)) rd rs1 s

end Sys2Proof.Machine
end

