-- ==== Sys2Proof/Machine/ShiftRegister.lean ====
section
/-! DEFINITION. The eight register-amount instructions (spec/42_simd32_shift_register.md R70 to R77). One amount, taken
once from x[rs2] before any write, serves both elements. -/

namespace Sys2Proof.Machine

/-- KSLL32 (R70): saturating left shift by the low five bits of x[rs2]; OV set if an element saturates. -/
def execKsll32 (rd rs1 rs2 : Reg) (s : State) : Host.Outcome State Fault Refusal :=
  satLaneOp (fun w => ksllLane w (s.regAmount rs2)) rd rs1 s

/-- KSLRA32 (R71): the low six bits of x[rs2], signed, choose a saturating left or an arithmetic right shift; OV set
if an element saturates. -/
def execKslra32 (rd rs1 rs2 : Reg) (s : State) : Host.Outcome State Fault Refusal :=
  satLaneOp (fun w => kslraLane w (s.signedAmount rs2) false) rd rs1 s

/-- KSLRA32.u (R72): KSLRA32 with the rounding right shift. -/
def execKslra32u (rd rs1 rs2 : Reg) (s : State) : Host.Outcome State Fault Refusal :=
  satLaneOp (fun w => kslraLane w (s.signedAmount rs2) true) rd rs1 s

/-- SLL32 (R73): left shift by the low five bits of x[rs2]. -/
def execSll32 (rd rs1 rs2 : Reg) (s : State) : Host.Outcome State Fault Refusal :=
  laneOp (fun w => sllLane w (s.regAmount rs2)) rd rs1 s

/-- SRA32 (R74): arithmetic right shift by the low five bits of x[rs2]. -/
def execSra32 (rd rs1 rs2 : Reg) (s : State) : Host.Outcome State Fault Refusal :=
  laneOp (fun w => sraLane w (s.regAmount rs2)) rd rs1 s

/-- SRA32.u (R75): rounding arithmetic right shift by the low five bits of x[rs2]. -/
def execSra32u (rd rs1 rs2 : Reg) (s : State) : Host.Outcome State Fault Refusal :=
  laneOp (fun w => srauLane w (s.regAmount rs2)) rd rs1 s

/-- SRL32 (R76): logical right shift by the low five bits of x[rs2]. -/
def execSrl32 (rd rs1 rs2 : Reg) (s : State) : Host.Outcome State Fault Refusal :=
  laneOp (fun w => srlLane w (s.regAmount rs2)) rd rs1 s

/-- SRL32.u (R77): rounding logical right shift by the low five bits of x[rs2]. -/
def execSrl32u (rd rs1 rs2 : Reg) (s : State) : Host.Outcome State Fault Refusal :=
  laneOp (fun w => srluLane w (s.regAmount rs2)) rd rs1 s

end Sys2Proof.Machine
end

