-- ==== Sys2Proof/Machine/Dispatch.lean ====
section
/-! DEFINITION. The dispatch of an instruction to its meaning: one arm per row of spec/opcode_table.json. -/

namespace Sys2Proof.Machine

def exec (i : Instr) (s : State) : Host.Outcome State Fault Refusal :=
  match i with
  | .kslli32 rd rs1 imm5u => Sys2Proof.Machine.execKslli32 rd rs1 imm5u s
  | .slli32 rd rs1 imm5u => Sys2Proof.Machine.execSlli32 rd rs1 imm5u s
  | .srai32 rd rs1 imm5u => Sys2Proof.Machine.execSrai32 rd rs1 imm5u s
  | .srai32u rd rs1 imm5u => Sys2Proof.Machine.execSrai32u rd rs1 imm5u s
  | .srli32 rd rs1 imm5u => Sys2Proof.Machine.execSrli32 rd rs1 imm5u s
  | .srli32u rd rs1 imm5u => Sys2Proof.Machine.execSrli32u rd rs1 imm5u s
  | .ksll32 rd rs1 rs2 => Sys2Proof.Machine.execKsll32 rd rs1 rs2 s
  | .kslra32 rd rs1 rs2 => Sys2Proof.Machine.execKslra32 rd rs1 rs2 s
  | .kslra32u rd rs1 rs2 => Sys2Proof.Machine.execKslra32u rd rs1 rs2 s
  | .sll32 rd rs1 rs2 => Sys2Proof.Machine.execSll32 rd rs1 rs2 s
  | .sra32 rd rs1 rs2 => Sys2Proof.Machine.execSra32 rd rs1 rs2 s
  | .sra32u rd rs1 rs2 => Sys2Proof.Machine.execSra32u rd rs1 rs2 s
  | .srl32 rd rs1 rs2 => Sys2Proof.Machine.execSrl32 rd rs1 rs2 s
  | .srl32u rd rs1 rs2 => Sys2Proof.Machine.execSrl32u rd rs1 rs2 s

end Sys2Proof.Machine
end

