-- ==== Sys2Proof/Machine/Step.lean ====
section
/-! DEFINITION. One step of the hart (spec/70_reset_and_hazards.md R114, R115). -/

namespace Sys2Proof.Machine

/-- One step: at END_PC the run is over (R115); a pc that is not a multiple of 4 is outside the model
(20_memory.md R27); then fetch, decode and execute, each by its rule (R114; 60_exceptions.md R94: the fetch is checked
first; assumption log entry 26). The meanings move pc past the instruction. -/
def step (s : State) : Host.Outcome State Fault Refusal :=
  if s.pc = s.endPc then .fault .endOfRun
  else if !aligned s.pc then .fault (.misalignedPc s.pc)
  else
    match s.imem.fetchWord s.pc with
    | none => .fault (.stuck s.pc)
    | some w =>
      match decodeWord w with
      | none => .refused (.notAdmitted s.pc w)
      | some i => exec i s

/-- The host's load of one instruction where the next step fetches (60_exceptions.md R104): the word's bytes at pc,
pc brought to a multiple of 4 and END_PC, where it equals pc, moved past the word; nothing else changes (assumption
log entry 8). -/
def State.withFetchWord (s : State) (nbits w : Nat) : State :=
  let pc := alignDown s.pc
  { s with
    pc := pc
    imem := s.imem.storeWord pc (tableWord nbits w)
    endPc := if s.endPc = pc then pc + 4#64 else s.endPc }

end Sys2Proof.Machine
end

