-- ==== Sys2Proof/Machine/Assembler.lean ====
section
/-! DEFINITION. The assembler's view of an instruction (spec/30_encoding.md R46, R47, R48).

The operands of an assembler line are register numbers and integers as a programmer writes them; `assemble` answers
the instruction a line stands for and nothing where there is none. There is no pseudo-instruction (R48). Case and
register spelling follow the spec's own choice (assumption log entry 22). -/

namespace Sys2Proof.Machine

/-- The mnemonic as the source and spec/opcode_table.json spell it (R46). -/
def mnemonicName : Mnemonic → String
  | .kslli32 => "KSLLI32"
  | .slli32 => "SLLI32"
  | .srai32 => "SRAI32"
  | .srai32u => "SRAI32.u"
  | .srli32 => "SRLI32"
  | .srli32u => "SRLI32.u"
  | .ksll32 => "KSLL32"
  | .kslra32 => "KSLRA32"
  | .kslra32u => "KSLRA32.u"
  | .sll32 => "SLL32"
  | .sra32 => "SRA32"
  | .sra32u => "SRA32.u"
  | .srl32 => "SRL32"
  | .srl32u => "SRL32.u"

/-- The mnemonic in an assembler line, lower case (R47). -/
def asmName : Mnemonic → String
  | .kslli32 => "kslli32"
  | .slli32 => "slli32"
  | .srai32 => "srai32"
  | .srai32u => "srai32.u"
  | .srli32 => "srli32"
  | .srli32u => "srli32.u"
  | .ksll32 => "ksll32"
  | .kslra32 => "kslra32"
  | .kslra32u => "kslra32.u"
  | .sll32 => "sll32"
  | .sra32 => "sra32"
  | .sra32u => "sra32.u"
  | .srl32 => "srl32"
  | .srl32u => "srl32.u"

/-- Whether a mnemonic takes an immediate (R36, R46): the six forms of 41_simd32_shift_immediate.md do. -/
def takesImm : Mnemonic → Bool
  | .kslli32 => true
  | .slli32 => true
  | .srai32 => true
  | .srai32u => true
  | .srli32 => true
  | .srli32u => true
  | .ksll32 => false
  | .kslra32 => false
  | .kslra32u => false
  | .sll32 => false
  | .sra32 => false
  | .sra32u => false
  | .srl32 => false
  | .srl32u => false

/-- The instruction of a mnemonic with its operands; none where the third operand is not of the mnemonic's kind. -/
def withOperands (m : Mnemonic) (rd rs1 : Reg) (amount : Amount) : Option Instr :=
  match m, amount with
  | .kslli32, .imm n => some (.kslli32 rd rs1 n)
  | .slli32, .imm n => some (.slli32 rd rs1 n)
  | .srai32, .imm n => some (.srai32 rd rs1 n)
  | .srai32u, .imm n => some (.srai32u rd rs1 n)
  | .srli32, .imm n => some (.srli32 rd rs1 n)
  | .srli32u, .imm n => some (.srli32u rd rs1 n)
  | .ksll32, .reg r => some (.ksll32 rd rs1 r)
  | .kslra32, .reg r => some (.kslra32 rd rs1 r)
  | .kslra32u, .reg r => some (.kslra32u rd rs1 r)
  | .sll32, .reg r => some (.sll32 rd rs1 r)
  | .sra32, .reg r => some (.sra32 rd rs1 r)
  | .sra32u, .reg r => some (.sra32u rd rs1 r)
  | .srl32, .reg r => some (.srl32 rd rs1 r)
  | .srl32u, .reg r => some (.srl32u rd rs1 r)
  | _, _ => none

/-- An operand of an assembler line: a register by number, or an integer constant. -/
inductive AsmOperand where
  | reg (n : Nat)
  | imm (n : Int)
deriving DecidableEq, Repr

/-- A register by number: x0 to x31 and no other (R37). -/
def asmReg (n : Nat) : Option Reg := if h : n < 32 then some ⟨n, h⟩ else none

/-- The third operand: a register, or an integer 0 to 31, any other being rejected (R47). -/
def asmAmount : AsmOperand → Option Amount
  | .reg n => (asmReg n).map .reg
  | .imm n => if 0 ≤ n ∧ n < 32 then some (.imm n.toNat) else none

/-- The instruction of an assembler line, operands in the order Rd, Rs1, amount (R46, R47). -/
def assemble (m : Mnemonic) : List AsmOperand → Option Instr
  | [.reg d, .reg s, third] =>
    match asmReg d, asmReg s, asmAmount third with
    | some rd, some rs1, some amount => withOperands m rd rs1 amount
    | _, _, _ => none
  | _ => none

/-- The third operand as an assembler line writes it. -/
def asmThird : Amount → AsmOperand
  | .imm n => .imm n
  | .reg r => .reg r.val

/-- The operands of an instruction's assembler line. -/
def asmOperands (i : Instr) : List AsmOperand := [.reg i.rd.val, .reg i.rs1.val, asmThird i.amount]

/-- One operand as text. -/
def operandText : AsmOperand → String
  | .reg n => "x" ++ toString n
  | .imm n => toString n

/-- An instruction as the text of its assembler line (R46, R47). -/
def asmText (i : Instr) : String :=
  asmName i.mnemonic ++ " " ++ String.intercalate ", " ((asmOperands i).map operandText)

end Sys2Proof.Machine
end

