-- ==== Sys2Proof/Machine/Intrinsics.lean ====
section
/-! DEFINITION. The C intrinsics, the host's view of one instruction (spec/43_c_intrinsics.md R80 to R84).

An intrinsic is a function of (a, b, OV) to (result, OV): the ten that do not saturate hand OV through (R84).
`unsigned long` is 64 bits and b is a 32-bit value (R83; assumption log entry 21). -/

namespace Sys2Proof.Machine

/-- The name the page declares (R80). -/
def intrinsicName : Mnemonic → String
  | .kslli32 => "__RV_KSLLI32"
  | .slli32 => "__RV_SLLI32"
  | .srai32 => "__RV_SRAI32"
  | .srai32u => "__RV_SRAI32_U"
  | .srli32 => "__RV_SRLI32"
  | .srli32u => "__RV_SRLI32_U"
  | .ksll32 => "__RV_KSLL32"
  | .kslra32 => "__RV_KSLRA32"
  | .kslra32u => "__RV_KSLRA32_U"
  | .sll32 => "__RV_SLL32"
  | .sra32 => "__RV_SRA32"
  | .sra32u => "__RV_SRA32_U"
  | .srl32 => "__RV_SRL32"
  | .srl32u => "__RV_SRL32_U"

/-- The immediate forms are macros, the register forms functions (R80). -/
def intrinsicIsMacro (m : Mnemonic) : Bool := takesImm m

/-- Whether b is `int`: so for KSLRA32 and KSLRA32.u, and `unsigned int` for the other twelve (R81). -/
def intrinsicSignedB : Mnemonic → Bool
  | .kslli32 => false
  | .slli32 => false
  | .srai32 => false
  | .srai32u => false
  | .srli32 => false
  | .srli32u => false
  | .ksll32 => false
  | .kslra32 => true
  | .kslra32u => true
  | .sll32 => false
  | .sra32 => false
  | .sra32u => false
  | .srl32 => false
  | .srl32u => false

/-- The 64-bit register value that holds a C value b: the calling convention sign-extends 32-bit integers (R83). -/
def widenB (b : BitVec 32) : Word := b.signExtend 64

/-- The instruction a call runs (R82): the one instruction of its name on the registers the compiler picks; b is the
immediate of a macro, which must be a constant 0 to 31 (R83; none is what the page leaves unsaid), and stands in rs2
of a function. -/
def intrinsicInstr (m : Mnemonic) (rd rs1 rs2 : Reg) (b : BitVec 32) : Option Instr :=
  if takesImm m then
    if immInRange b.toNat then withOperands m rd rs1 (.imm b.toNat) else none
  else withOperands m rd rs1 (.reg rs2)

/-- `uint(b[4:0])`, the amount of every form but two (R83). -/
def amountOfB (b : BitVec 32) : Nat := (b.extractLsb' 0 5).toNat

/-- `sint(b[5:0])`, the amount of KSLRA32 and KSLRA32.u (R83). -/
def signedAmountOfB (b : BitVec 32) : Int := (b.extractLsb' 0 6).toInt

/-- The result and OV of an intrinsic that does not saturate. -/
def callLanes (f : Elem → Elem) (a : Word) (ov : Bool) : Word × Bool := (lanes f a, ov)

/-- The result and OV of a saturating intrinsic. -/
def callSatLanes (f : Elem → Elem × Bool) (a : Word) (ov : Bool) : Word × Bool :=
  (pack (f (upper a)).1 (f (lower a)).1, ov || (f (upper a)).2 || (f (lower a)).2)

/-- The call `r = __RV_<OP>(a, b)` as a function of (a, b, OV) to (r, OV) (R82, R84); none where b is no immediate. -/
def intrinsicCall (m : Mnemonic) (a : Word) (b : BitVec 32) (ov : Bool) : Option (Word × Bool) :=
  if takesImm m && !decide (immInRange b.toNat) then none
  else
    match m with
    | .kslli32 => some (callSatLanes (fun w => ksllLane w (amountOfB b)) a ov)
    | .slli32 => some (callLanes (fun w => sllLane w (amountOfB b)) a ov)
    | .srai32 => some (callLanes (fun w => sraLane w (amountOfB b)) a ov)
    | .srai32u => some (callLanes (fun w => srauLane w (amountOfB b)) a ov)
    | .srli32 => some (callLanes (fun w => srlLane w (amountOfB b)) a ov)
    | .srli32u => some (callLanes (fun w => srluLane w (amountOfB b)) a ov)
    | .ksll32 => some (callSatLanes (fun w => ksllLane w (amountOfB b)) a ov)
    | .kslra32 => some (callSatLanes (fun w => kslraLane w (signedAmountOfB b) false) a ov)
    | .kslra32u => some (callSatLanes (fun w => kslraLane w (signedAmountOfB b) true) a ov)
    | .sll32 => some (callLanes (fun w => sllLane w (amountOfB b)) a ov)
    | .sra32 => some (callLanes (fun w => sraLane w (amountOfB b)) a ov)
    | .sra32u => some (callLanes (fun w => srauLane w (amountOfB b)) a ov)
    | .srl32 => some (callLanes (fun w => srlLane w (amountOfB b)) a ov)
    | .srl32u => some (callLanes (fun w => srluLane w (amountOfB b)) a ov)

end Sys2Proof.Machine
end

