-- ==== Sys2Proof/Safety.lean ====
section
/-! DEFINITION. The terms that claims are stated in: legal and launch states, runs, saturation, and what each shift
does to one element, said over integers and bits and apart from the functions the meanings call. -/

namespace Sys2Proof.Machine

/-- The legal states: x[0] holds zero (10_state.md R12; 70_reset_and_hazards.md R111 (c)), pc is a multiple of 4
(10_state.md R17), and IMEM has its canonical form. -/
abbrev State.Inv (s : State) : Prop := s.x[0] = 0#64 ∧ s.pc.toNat % 4 = 0 ∧ s.imem.wf

/-- An admissible launch state (70_reset_and_hazards.md R111 (a), (b), (c)); (d), IMEM fixed for the run, is a claim
about `step`. -/
abbrev State.Admissible (s : State) : Prop :=
  s.pc.toNat % 4 = 0 ∧ s.endPc.toNat % 4 = 0 ∧ s.x[0] = 0#64

/-- A state from which the hart is to take a step: the run is not over and pc is a multiple of 4. -/
abbrev State.Running (s : State) : Prop := s.pc ≠ s.endPc ∧ s.pc.toNat % 4 = 0

/-- n steps from a state, stopping at the first that gives no next state. -/
def run (n : Nat) (s : State) : Host.Outcome State Fault Refusal := Sys2Proof.core.run n s

/-- The instruction that the next step of a state runs: the one its word at pc decodes to. -/
def State.nextInstr (s : State) : Option Instr := (s.imem.fetchWord s.pc).bind decodeWord

/-- An exact product outside the signed 32-bit range (40_simd32_lane_operations.md R56). -/
abbrev Overflows (p : Int) : Prop := 2 ^ 31 - 1 < p ∨ p < -(2 ^ 31)

/-- `uint(v[4:0])` (30_encoding.md R39), as arithmetic. -/
def lowFive (v : Word) : Nat := v.toNat % 32

/-- `sint(v[5:0])` (30_encoding.md R40), as arithmetic. -/
def lowSixSigned (v : Word) : Int :=
  if v.toNat % 64 < 32 then (v.toNat % 64 : Nat) else ((v.toNat % 64 : Nat) : Int) - 64

/-- Whether one element overflows when an instruction runs, w being the element and s the state before it (R56, R57):
only a saturating left shift can. -/
def elementSaturates (i : Instr) (s : State) (w : Elem) : Prop :=
  match i with
  | .kslli32 _ _ n => Overflows (w.toInt * 2 ^ (n % 32))
  | .ksll32 _ _ r => Overflows (w.toInt * 2 ^ lowFive (s.readReg r))
  | .kslra32 _ _ r => 0 ≤ lowSixSigned (s.readReg r) ∧ Overflows (w.toInt * 2 ^ (lowSixSigned (s.readReg r)).toNat)
  | .kslra32u _ _ r => 0 ≤ lowSixSigned (s.readReg r) ∧ Overflows (w.toInt * 2 ^ (lowSixSigned (s.readReg r)).toNat)
  | .slli32 _ _ _ => False
  | .srai32 _ _ _ => False
  | .srai32u _ _ _ => False
  | .srli32 _ _ _ => False
  | .srli32u _ _ _ => False
  | .sll32 _ _ _ => False
  | .sra32 _ _ _ => False
  | .sra32u _ _ _ => False
  | .srl32 _ _ _ => False
  | .srl32u _ _ _ => False

/-- Whether an instruction saturates at least one element when it runs in a state (R58). -/
def saturates (i : Instr) (s : State) : Prop :=
  elementSaturates i s ((s.readReg i.rs1).extractLsb' 32 32) ∨
    elementSaturates i s ((s.readReg i.rs1).extractLsb' 0 32)

/-- The four mnemonics that can write OV (10_state.md R18). -/
def saturatingMnemonics : List Mnemonic := [.kslli32, .ksll32, .kslra32, .kslra32u]

/-- r is w shifted left by sa places, zeros entering at the bottom (R51). -/
def IsSll (sa : Nat) (w r : Elem) : Prop := ∀ k < 32, r.getLsbD k = (decide (sa ≤ k) && w.getLsbD (k - sa))

/-- r is w shifted right by sa places with copies of the sign bit w[31] entering at the top (R52). -/
def IsSra (sa : Nat) (w r : Elem) : Prop := ∀ k < 32, r.getLsbD k = w.getLsbD (min (k + sa) 31)

/-- r is w shifted right by sa places with zeros entering at the top (R54). -/
def IsSrl (sa : Nat) (w r : Elem) : Prop := ∀ k < 32, r.getLsbD k = (decide (k + sa < 32) && w.getLsbD (k + sa))

/-- r is the signed element w divided by 2^sa and rounded to the nearest integer, a tie toward plus infinity (R53); a
shift by 0 does not round. -/
def IsSrau (sa : Nat) (w r : Elem) : Prop :=
  if sa = 0 then r = w else r.toInt = (w.toInt + 2 ^ (sa - 1)) / 2 ^ sa

/-- r is the unsigned element w divided by 2^sa and rounded to the nearest integer, a tie going up (R55); a shift by 0
does not round. -/
def IsSrlu (sa : Nat) (w r : Elem) : Prop :=
  if sa = 0 then r = w else r.toNat = (w.toNat + 2 ^ (sa - 1)) / 2 ^ sa

/-- r is the signed element w times 2^sa where that is in range, and the nearer bound where it is not (R56). -/
def IsKsll (sa : Nat) (w r : Elem) : Prop :=
  (2 ^ 31 - 1 < w.toInt * 2 ^ sa → r = 0x7FFFFFFF#32) ∧
  (w.toInt * 2 ^ sa < -(2 ^ 31) → r = 0x80000000#32) ∧
  (¬ Overflows (w.toInt * 2 ^ sa) → r.toInt = w.toInt * 2 ^ sa)

/-- r is w shifted as the signed amount says (R57): left with saturation where it is not negative, else right by its
absolute value, at most 31, rounding when u. -/
def IsKslra (amt : Int) (u : Bool) (w r : Elem) : Prop :=
  if amt < 0 then
    if u then IsSrau (min (-amt).toNat 31) w r else IsSra (min (-amt).toNat 31) w r
  else IsKsll amt.toNat w r

/-- The register value v whose elements f relates, each on its own, to those of the register value a (R50). -/
def ElementsBy (f : Elem → Elem → Prop) (a v : Word) : Prop :=
  f (a.extractLsb' 32 32) (v.extractLsb' 32 32) ∧ f (a.extractLsb' 0 32) (v.extractLsb' 0 32)

/-- From s to t, x[rd] takes the value v (a write to x[0] is discarded, R12), pc advances by 4 modulo 2^64 (R16), and
nothing else changes: every other register, END_PC and every byte of IMEM. OV is stated beside it. -/
def WritesOnly (s t : State) (rd : Reg) (v : Word) : Prop :=
  (∀ r, t.readReg r = if r = rd ∧ r ≠ 0 then v else s.readReg r) ∧
  t.pc = BitVec.ofNat 64 (s.pc.toNat + 4) ∧
  t.endPc = s.endPc ∧
  ∀ a, t.imem.read a = s.imem.read a

end Sys2Proof.Machine
end

