-- ==== Sys2Proof/Certificates/Slice0/Obligations.lean ====
section
/-! DEFINITION. The statements about the machine that the provers settle (OBLIGATIONS.json lists them in this order).

The relations and predicates they are stated in stand in Sys2Proof/Safety.lean, apart from the functions that the
meanings call. `ElementsBy` relates both elements of a register value, `WritesOnly` is an instruction's frame: every
other register, END_PC and every byte of IMEM unchanged, pc advanced by 4. No instruction stores (20_memory.md R26),
so every address of memory reads as before after every instruction. -/

open Sys2Proof Sys2Proof.Machine

/-! Encoding and decoding. -/

/-- Decode and encode agree: no operand bit of any of the 14 is dropped (30_encoding.md R36 to R42). -/
def Obligations.DecodeOfEncodeIsTheInstruction : Prop :=
  ∀ i : Instr, i.WellFormed →
    ∃ w, encode i = some w ∧ decodeWord w = some i ∧ ∀ rest, decode (bytesOfWord w ++ rest) = .ok (i, rest)

/-- The other direction: every admitted word is some instruction's only encoding (30_encoding.md R42, R44). -/
def Obligations.EncodeOfDecodeIsTheWord : Prop :=
  ∀ (w : InstrWord) (i : Instr), decodeWord w = some i → i.WellFormed ∧ encode i = some w

/-- Which words are admitted, by rule R41's decimal column and 95_test_vectors.md section 4.4. -/
def Obligations.DecoderAdmitsExactlyTheFunctCodes : Prop :=
  ∀ w : InstrWord, (∃ i, decodeWord w = some i) ↔
    w.extractLsb' 0 7 = 0b1110111#7 ∧ w.extractLsb' 12 3 = 0b010#3 ∧
      (w.extractLsb' 25 7).toNat ∈ [40, 41, 42, 43, 48, 49, 50, 51, 56, 57, 58, 64, 65, 66]

/-- 30_encoding.md R47: an immediate outside 0 to 31 has no encoding and an assembler must reject it. -/
def Obligations.OutOfRangeImmediateHasNoEncoding : Prop :=
  (∀ i : Instr, ¬ i.WellFormed → encode i = none ∧ ∀ w, decodeWord w ≠ some i) ∧
  ∀ (m : Mnemonic) (d s : Nat) (n : Int), n < 0 ∨ 31 < n → assemble m [.reg d, .reg s, .imm n] = none

/-- The assembler syntax of 30_encoding.md R46 and the operand order of R47. Rejecting a register above x31 is the
model's choice (assumption log entry 22). -/
def Obligations.AssemblerLineRoundTrip : Prop :=
  (∀ i : Instr, i.WellFormed → assemble i.mnemonic (asmOperands i) = some i) ∧
  ∀ (m : Mnemonic) (ops : List AsmOperand) (i : Instr), assemble m ops = some i →
    i.WellFormed ∧ i.mnemonic = m ∧ asmOperands i = ops

/-- A sanity check of the decoder on words of 95_test_vectors.md sections 4.1 to 4.3. -/
def Obligations.WordsOfTheSpecDecode : Prop :=
  decodeWord 0x847322F7#32 = some (.kslli32 5 6 7) ∧ decodeWord 0x750120F7#32 = some (.slli32 1 2 16) ∧
  decodeWord 0x71FFAFF7#32 = some (.srai32 31 31 31) ∧ decodeWord 0x810120F7#32 = some (.srai32u 1 2 16) ∧
  decodeWord 0x727322F7#32 = some (.srli32 5 6 7) ∧ decodeWord 0x83FA2CF7#32 = some (.srli32u 25 20 31) ∧
  decodeWord 0x647322F7#32 = some (.ksll32 5 6 7) ∧ decodeWord 0x570120F7#32 = some (.kslra32 1 2 16) ∧
  decodeWord 0x667322F7#32 = some (.kslra32u 5 6 7) ∧ decodeWord 0x550120F7#32 = some (.sll32 1 2 16) ∧
  decodeWord 0x507322F7#32 = some (.sra32 5 6 7) ∧ decodeWord 0x610120F7#32 = some (.sra32u 1 2 16) ∧
  decodeWord 0x527322F7#32 = some (.srl32 5 6 7) ∧ decodeWord 0x630120F7#32 = some (.srl32u 1 2 16) ∧
  decodeWord 0x50002073#32 = none ∧ decodeWord 0x58002077#32 = none ∧ decodeWord 0xD0002077#32 = none

/-! The element-level operations. -/

/-- R51's derived form: the signed product gives the same vector. -/
def Obligations.SllLaneIgnoresSign : Prop :=
  ∀ (w : Elem) (sa : Nat), sa < 32 → sllLane w sa = BitVec.ofInt 32 (w.toInt * 2 ^ sa)

/-- R52's derived form (Lean's integer division by a positive number is the floor). -/
def Obligations.SraLaneIsFloorDivision : Prop :=
  ∀ (w : Elem) (sa : Nat), sa < 32 → sraLane w sa = BitVec.ofInt 32 (w.toInt / 2 ^ sa)

/-- R54's derived form. -/
def Obligations.SrlLaneIsFloorDivision : Prop :=
  ∀ (w : Elem) (sa : Nat), sa < 32 → srlLane w sa = BitVec.ofNat 32 (w.toNat / 2 ^ sa)

/-- R53's derived forms (a) and (b), and its bound: the 33-bit addition and the halving round to nearest, a tie toward
plus infinity, and never overflow. -/
def Obligations.SrauLaneRoundsToNearest : Prop :=
  ∀ (w : Elem) (sa : Nat), sa < 32 →
    (sa = 0 → srauLane w sa = w) ∧
    (1 ≤ sa →
      srauLane w sa = BitVec.ofInt 32 ((w.toInt + 2 ^ (sa - 1)) / 2 ^ sa) ∧
      (srauLane w sa).toInt = (sraLane w sa).toInt + (if w.getLsbD (sa - 1) then 1 else 0) ∧
      -(2 ^ 30) ≤ (srauLane w sa).toInt ∧ (srauLane w sa).toInt ≤ 2 ^ 30)

/-- R55's derived forms (a) and (b), and its bound: the 33rd bit carries the one case that needs it. -/
def Obligations.SrluLaneRoundsToNearest : Prop :=
  ∀ (w : Elem) (sa : Nat), sa < 32 →
    (sa = 0 → srluLane w sa = w) ∧
    (1 ≤ sa →
      srluLane w sa = BitVec.ofNat 32 ((w.toNat + 2 ^ (sa - 1)) / 2 ^ sa) ∧
      (srluLane w sa).toNat = (srlLane w sa).toNat + (if w.getLsbD (sa - 1) then 1 else 0) ∧
      (srluLane w sa).toNat ≤ 2 ^ 31)

/-- R56's derived forms: saturation read off the bits, and what each case returns. -/
def Obligations.KsllLaneSaturatesWhenTopBitsDiffer : Prop :=
  ∀ (w : Elem) (sa : Nat), sa < 32 →
    ((ksllLane w sa).2 = false ↔ ∀ k, 31 - sa ≤ k → k ≤ 31 → w.getLsbD k = w.getLsbD 31) ∧
    ((ksllLane w sa).2 = false → (ksllLane w sa).1 = sllLane w sa) ∧
    ((ksllLane w sa).2 = true → (ksllLane w sa).1 = if w.getLsbD 31 then 0x80000000#32 else 0x7FFFFFFF#32)

/-- R57 and its table of the six-bit pattern. -/
def Obligations.KslraLaneChoosesByTheSign : Prop :=
  ∀ (w : Elem) (u : Bool),
    (∀ n : Nat, 1 ≤ n → n ≤ 32 →
      kslraLane w (-(n : Int)) u = (if u then srauLane w (min n 31) else sraLane w (min n 31), false)) ∧
    (∀ n : Nat, n ≤ 31 → kslraLane w n u = ksllLane w n) ∧
    kslraLane w (-32) u = kslraLane w (-31) u ∧
    kslraLane w 0 u = (w, false)

/-! The six immediate-amount instructions: result, frame, completion, encoding and worked example. -/

/-- KSLLI32 (R60): its effect on every state and operand, what it leaves unchanged, its encoding and its worked
example. -/
def Obligations.Kslli32SaturatesAndShifts : Prop :=
  (∀ (rd rs1 : Reg) (n : Nat) (s : State), n < 32 → ∃ t v, exec (.kslli32 rd rs1 n) s = .next t ∧
    ElementsBy (IsKsll n) (s.readReg rs1) v ∧ WritesOnly s t rd v ∧
    (t.ov = true ↔ s.ov = true ∨ Overflows (((s.readReg rs1).extractLsb' 32 32).toInt * 2 ^ n) ∨
      Overflows (((s.readReg rs1).extractLsb' 0 32).toInt * 2 ^ n))) ∧
  (∀ t rs1 rd : BitVec 5, decodeWord (0b1000010#7 ++ t ++ rs1 ++ 0b010#3 ++ rd ++ 0b1110111#7) =
    some (.kslli32 rd.toFin rs1.toFin t.toNat)) ∧
  decodeWord 0x847322F7#32 = some (.kslli32 5 6 7) ∧
  (∀ s : State, s.readReg 6 = 0x00FFFFFF01000000#64 → s.ov = false →
    ∃ t, exec (.kslli32 5 6 7) s = .next t ∧ t.readReg 5 = 0x7FFFFF807FFFFFFF#64 ∧ t.ov = true)

/-- SLLI32 (R61): its effect on every state and operand, what it leaves unchanged, its encoding and its worked
example. -/
def Obligations.Slli32ShiftsLeft : Prop :=
  (∀ (rd rs1 : Reg) (n : Nat) (s : State), n < 32 → ∃ t v, exec (.slli32 rd rs1 n) s = .next t ∧
    ElementsBy (IsSll n) (s.readReg rs1) v ∧ WritesOnly s t rd v ∧
    t.ov = s.ov) ∧
  (∀ t rs1 rd : BitVec 5, decodeWord (0b0111010#7 ++ t ++ rs1 ++ 0b010#3 ++ rd ++ 0b1110111#7) =
    some (.slli32 rd.toFin rs1.toFin t.toNat)) ∧
  decodeWord 0x75F120F7#32 = some (.slli32 1 2 31) ∧
  (∀ s : State, s.readReg 2 = 0x0000000300000002#64 →
    ∃ t, exec (.slli32 1 2 31) s = .next t ∧ t.readReg 1 = 0x8000000000000000#64)

/-- SRAI32 (R62): its effect on every state and operand, what it leaves unchanged, its encoding and its worked
example. -/
def Obligations.Srai32ShiftsRightArithmetically : Prop :=
  (∀ (rd rs1 : Reg) (n : Nat) (s : State), n < 32 → ∃ t v, exec (.srai32 rd rs1 n) s = .next t ∧
    ElementsBy (IsSra n) (s.readReg rs1) v ∧ WritesOnly s t rd v ∧
    t.ov = s.ov) ∧
  (∀ t rs1 rd : BitVec 5, decodeWord (0b0111000#7 ++ t ++ rs1 ++ 0b010#3 ++ rd ++ 0b1110111#7) =
    some (.srai32 rd.toFin rs1.toFin t.toNat)) ∧
  decodeWord 0x7005A577#32 = some (.srai32 10 11 0) ∧
  (∀ s : State, s.readReg 11 = 0x8000000180000001#64 →
    ∃ t, exec (.srai32 10 11 0) s = .next t ∧ t.readReg 10 = 0x8000000180000001#64) ∧
  decodeWord 0x70F5A577#32 = some (.srai32 10 11 15) ∧
  (∀ s : State, s.readReg 11 = 0xFFFF400000004000#64 →
    ∃ t, exec (.srai32 10 11 15) s = .next t ∧ t.readReg 10 = 0xFFFFFFFE00000000#64)

/-- SRAI32.u (R63): its effect on every state and operand, what it leaves unchanged, its encoding and its worked
example. The rounded result is stated by the form that the rule of the lane function derives. -/
def Obligations.Srai32uRoundsToNearest : Prop :=
  (∀ (rd rs1 : Reg) (n : Nat) (s : State), n < 32 → ∃ t v, exec (.srai32u rd rs1 n) s = .next t ∧
    ElementsBy (IsSrau n) (s.readReg rs1) v ∧ WritesOnly s t rd v ∧
    t.ov = s.ov) ∧
  (∀ t rs1 rd : BitVec 5, decodeWord (0b1000000#7 ++ t ++ rs1 ++ 0b010#3 ++ rd ++ 0b1110111#7) =
    some (.srai32u rd.toFin rs1.toFin t.toNat)) ∧
  decodeWord 0x80F5A577#32 = some (.srai32u 10 11 15) ∧
  (∀ s : State, s.readReg 11 = 0xFFFF400000004000#64 →
    ∃ t, exec (.srai32u 10 11 15) s = .next t ∧ t.readReg 10 = 0xFFFFFFFF00000001#64)

/-- SRLI32 (R64): its effect on every state and operand, what it leaves unchanged, its encoding and its worked
example. -/
def Obligations.Srli32ShiftsRightLogically : Prop :=
  (∀ (rd rs1 : Reg) (n : Nat) (s : State), n < 32 → ∃ t v, exec (.srli32 rd rs1 n) s = .next t ∧
    ElementsBy (IsSrl n) (s.readReg rs1) v ∧ WritesOnly s t rd v ∧
    t.ov = s.ov) ∧
  (∀ t rs1 rd : BitVec 5, decodeWord (0b0111001#7 ++ t ++ rs1 ++ 0b010#3 ++ rd ++ 0b1110111#7) =
    some (.srli32 rd.toFin rs1.toFin t.toNat)) ∧
  decodeWord 0x721FAFF7#32 = some (.srli32 31 31 1) ∧
  (∀ s : State, s.readReg 31 = 0xFFFFFFFF00000003#64 →
    ∃ t, exec (.srli32 31 31 1) s = .next t ∧ t.readReg 31 = 0x7FFFFFFF00000001#64)

/-- SRLI32.u (R65): its effect on every state and operand, what it leaves unchanged, its encoding and its worked
example. The rounded result is stated by the form that the rule of the lane function derives. -/
def Obligations.Srli32uRoundsToNearest : Prop :=
  (∀ (rd rs1 : Reg) (n : Nat) (s : State), n < 32 → ∃ t v, exec (.srli32u rd rs1 n) s = .next t ∧
    ElementsBy (IsSrlu n) (s.readReg rs1) v ∧ WritesOnly s t rd v ∧
    t.ov = s.ov) ∧
  (∀ t rs1 rd : BitVec 5, decodeWord (0b1000001#7 ++ t ++ rs1 ++ 0b010#3 ++ rd ++ 0b1110111#7) =
    some (.srli32u rd.toFin rs1.toFin t.toNat)) ∧
  decodeWord 0x821FAFF7#32 = some (.srli32u 31 31 1) ∧
  (∀ s : State, s.readReg 31 = 0xFFFFFFFF00000003#64 →
    ∃ t, exec (.srli32u 31 31 1) s = .next t ∧ t.readReg 31 = 0x8000000000000002#64) ∧
  decodeWord 0x82002077#32 = some (.srli32u 0 0 0) ∧
  (∀ s : State, exec (.srli32u 0 0 0) s = .next { s with pc := s.pc + 4#64 }) ∧
  (∀ (rd rs1 : Reg) (s : State), rd ≠ 0 → s.readReg rs1 = 0x0000008000000180#64 →
    ∃ t, exec (.srli32u rd rs1 8) s = .next t ∧ t.readReg rd = 0x0000000100000002#64) ∧
  (∀ (rd rs1 : Reg) (s : State), rd ≠ 0 → s.readReg rs1 = 0x0000007F0000017F#64 →
    ∃ t, exec (.srli32u rd rs1 8) s = .next t ∧ t.readReg rd = 0x0000000000000001#64)

/-! The eight register-amount instructions: result, frame, completion, encoding and worked example. -/

/-- KSLL32 (R70): its effect on every state and operand, what it leaves unchanged, its encoding and its worked
example. -/
def Obligations.Ksll32SaturatesAndShifts : Prop :=
  (∀ (rd rs1 rs2 : Reg) (s : State), ∃ t v, exec (.ksll32 rd rs1 rs2) s = .next t ∧
    ElementsBy (IsKsll (lowFive (s.readReg rs2))) (s.readReg rs1) v ∧ WritesOnly s t rd v ∧
    (t.ov = true ↔ s.ov = true ∨ Overflows (((s.readReg rs1).extractLsb' 32 32).toInt * 2 ^ lowFive (s.readReg rs2)) ∨
      Overflows (((s.readReg rs1).extractLsb' 0 32).toInt * 2 ^ lowFive (s.readReg rs2)))) ∧
  (∀ t rs1 rd : BitVec 5, decodeWord (0b0110010#7 ++ t ++ rs1 ++ 0b010#3 ++ rd ++ 0b1110111#7) =
    some (.ksll32 rd.toFin rs1.toFin t.toFin)) ∧
  decodeWord 0x647322F7#32 = some (.ksll32 5 6 7) ∧
  (∀ s : State, s.readReg 6 = 0x0400000003FFFFFF#64 → s.readReg 7 = 0x0000000000000105#64 → s.ov = false →
    ∃ t, exec (.ksll32 5 6 7) s = .next t ∧ t.readReg 5 = 0x7FFFFFFF7FFFFFE0#64 ∧ t.ov = true)

/-- KSLRA32 (R71): its effect on every state and operand, what it leaves unchanged, its encoding and its worked
example. -/
def Obligations.Kslra32ShiftsEitherWay : Prop :=
  (∀ (rd rs1 rs2 : Reg) (s : State), ∃ t v, exec (.kslra32 rd rs1 rs2) s = .next t ∧
    ElementsBy (IsKslra (lowSixSigned (s.readReg rs2)) false) (s.readReg rs1) v ∧ WritesOnly s t rd v ∧
    (t.ov = true ↔ s.ov = true ∨
        (0 ≤ lowSixSigned (s.readReg rs2) ∧
          Overflows (((s.readReg rs1).extractLsb' 32 32).toInt * 2 ^ (lowSixSigned (s.readReg rs2)).toNat)) ∨
        (0 ≤ lowSixSigned (s.readReg rs2) ∧
          Overflows (((s.readReg rs1).extractLsb' 0 32).toInt * 2 ^ (lowSixSigned (s.readReg rs2)).toNat)))) ∧
  (∀ t rs1 rd : BitVec 5, decodeWord (0b0101011#7 ++ t ++ rs1 ++ 0b010#3 ++ rd ++ 0b1110111#7) =
    some (.kslra32 rd.toFin rs1.toFin t.toFin)) ∧
  decodeWord 0x567322F7#32 = some (.kslra32 5 6 7) ∧
  (∀ s : State, s.readReg 6 = 0x87654321FEDCBA98#64 → s.readReg 7 = 0xFFFFFFFFFFFFFFFC#64 → s.ov = false →
    ∃ t, exec (.kslra32 5 6 7) s = .next t ∧ t.readReg 5 = 0xF8765432FFEDCBA9#64 ∧ t.ov = false) ∧
  (∀ s : State, s.readReg 6 = 0x87654321FEDCBA98#64 → s.readReg 7 = 0x0000000000000004#64 → s.ov = false →
    ∃ t, exec (.kslra32 5 6 7) s = .next t ∧ t.readReg 5 = 0x80000000EDCBA980#64 ∧ t.ov = true)

/-- KSLRA32.u (R72): its effect on every state and operand, what it leaves unchanged, its encoding and its worked
example. The rounded result is stated by the form that the rule of the lane function derives. -/
def Obligations.Kslra32uShiftsEitherWayRounding : Prop :=
  (∀ (rd rs1 rs2 : Reg) (s : State), ∃ t v, exec (.kslra32u rd rs1 rs2) s = .next t ∧
    ElementsBy (IsKslra (lowSixSigned (s.readReg rs2)) true) (s.readReg rs1) v ∧ WritesOnly s t rd v ∧
    (t.ov = true ↔ s.ov = true ∨
        (0 ≤ lowSixSigned (s.readReg rs2) ∧
          Overflows (((s.readReg rs1).extractLsb' 32 32).toInt * 2 ^ (lowSixSigned (s.readReg rs2)).toNat)) ∨
        (0 ≤ lowSixSigned (s.readReg rs2) ∧
          Overflows (((s.readReg rs1).extractLsb' 0 32).toInt * 2 ^ (lowSixSigned (s.readReg rs2)).toNat)))) ∧
  (∀ t rs1 rd : BitVec 5, decodeWord (0b0110011#7 ++ t ++ rs1 ++ 0b010#3 ++ rd ++ 0b1110111#7) =
    some (.kslra32u rd.toFin rs1.toFin t.toFin)) ∧
  decodeWord 0x667322F7#32 = some (.kslra32u 5 6 7) ∧
  (∀ s : State, s.readReg 6 = 0x87654321FEDCBA98#64 → s.readReg 7 = 0xFFFFFFFFFFFFFFFC#64 →
    ∃ t, exec (.kslra32u 5 6 7) s = .next t ∧ t.readReg 5 = 0xF8765432FFEDCBAA#64 ∧ t.ov = s.ov) ∧
  (∀ s : State, s.readReg 6 = 0x800000007FFFFFFF#64 → s.readReg 7 = 0x0000000000000020#64 →
    ∃ t, exec (.kslra32u 5 6 7) s = .next t ∧ t.readReg 5 = 0xFFFFFFFF00000001#64)

/-- SLL32 (R73): its effect on every state and operand, what it leaves unchanged, its encoding and its worked example.
-/
def Obligations.Sll32ShiftsLeft : Prop :=
  (∀ (rd rs1 rs2 : Reg) (s : State), ∃ t v, exec (.sll32 rd rs1 rs2) s = .next t ∧
    ElementsBy (IsSll (lowFive (s.readReg rs2))) (s.readReg rs1) v ∧ WritesOnly s t rd v ∧
    t.ov = s.ov) ∧
  (∀ t rs1 rd : BitVec 5, decodeWord (0b0101010#7 ++ t ++ rs1 ++ 0b010#3 ++ rd ++ 0b1110111#7) =
    some (.sll32 rd.toFin rs1.toFin t.toFin)) ∧
  decodeWord 0x547322F7#32 = some (.sll32 5 6 7) ∧
  (∀ s : State, s.readReg 6 = 0x0400000003FFFFFF#64 → s.readReg 7 = 0x0000000000000105#64 →
    ∃ t, exec (.sll32 5 6 7) s = .next t ∧ t.readReg 5 = 0x800000007FFFFFE0#64 ∧ t.ov = s.ov)

/-- SRA32 (R74): its effect on every state and operand, what it leaves unchanged, its encoding and its worked example.
-/
def Obligations.Sra32ShiftsRightArithmetically : Prop :=
  (∀ (rd rs1 rs2 : Reg) (s : State), ∃ t v, exec (.sra32 rd rs1 rs2) s = .next t ∧
    ElementsBy (IsSra (lowFive (s.readReg rs2))) (s.readReg rs1) v ∧ WritesOnly s t rd v ∧
    t.ov = s.ov) ∧
  (∀ t rs1 rd : BitVec 5, decodeWord (0b0101000#7 ++ t ++ rs1 ++ 0b010#3 ++ rd ++ 0b1110111#7) =
    some (.sra32 rd.toFin rs1.toFin t.toFin)) ∧
  decodeWord 0x507322F7#32 = some (.sra32 5 6 7) ∧
  (∀ s : State, s.readReg 6 = 0xFFFFFE0000000200#64 → s.readReg 7 = 0x0000000000000029#64 →
    ∃ t, exec (.sra32 5 6 7) s = .next t ∧ t.readReg 5 = 0xFFFFFFFF00000001#64)

/-- SRA32.u (R75): its effect on every state and operand, what it leaves unchanged, its encoding and its worked
example. The rounded result is stated by the form that the rule of the lane function derives. -/
def Obligations.Sra32uRoundsToNearest : Prop :=
  (∀ (rd rs1 rs2 : Reg) (s : State), ∃ t v, exec (.sra32u rd rs1 rs2) s = .next t ∧
    ElementsBy (IsSrau (lowFive (s.readReg rs2))) (s.readReg rs1) v ∧ WritesOnly s t rd v ∧
    t.ov = s.ov) ∧
  (∀ t rs1 rd : BitVec 5, decodeWord (0b0110000#7 ++ t ++ rs1 ++ 0b010#3 ++ rd ++ 0b1110111#7) =
    some (.sra32u rd.toFin rs1.toFin t.toFin)) ∧
  decodeWord 0x607322F7#32 = some (.sra32u 5 6 7) ∧
  (∀ s : State, s.readReg 6 = 0xFFFFFF0000000100#64 → s.readReg 7 = 0x0000000000000009#64 →
    ∃ t, exec (.sra32u 5 6 7) s = .next t ∧ t.readReg 5 = 0x0000000000000001#64) ∧
  (∀ s : State, s.readReg 6 = 0xFFFFFF0000000100#64 → s.readReg 7 = 0x0000000000000009#64 →
    ∃ t, exec (.sra32 5 6 7) s = .next t ∧ t.readReg 5 = 0xFFFFFFFF00000000#64)

/-- SRL32 (R76): its effect on every state and operand, what it leaves unchanged, its encoding and its worked example.
-/
def Obligations.Srl32ShiftsRightLogically : Prop :=
  (∀ (rd rs1 rs2 : Reg) (s : State), ∃ t v, exec (.srl32 rd rs1 rs2) s = .next t ∧
    ElementsBy (IsSrl (lowFive (s.readReg rs2))) (s.readReg rs1) v ∧ WritesOnly s t rd v ∧
    t.ov = s.ov) ∧
  (∀ t rs1 rd : BitVec 5, decodeWord (0b0101001#7 ++ t ++ rs1 ++ 0b010#3 ++ rd ++ 0b1110111#7) =
    some (.srl32 rd.toFin rs1.toFin t.toFin)) ∧
  decodeWord 0x527322F7#32 = some (.srl32 5 6 7) ∧
  (∀ s : State, s.readReg 6 = 0xFFFFFE0000000200#64 → s.readReg 7 = 0x0000000000000009#64 →
    ∃ t, exec (.srl32 5 6 7) s = .next t ∧ t.readReg 5 = 0x007FFFFF00000001#64)

/-- SRL32.u (R77): its effect on every state and operand, what it leaves unchanged, its encoding and its worked
example. The rounded result is stated by the form that the rule of the lane function derives. -/
def Obligations.Srl32uRoundsToNearest : Prop :=
  (∀ (rd rs1 rs2 : Reg) (s : State), ∃ t v, exec (.srl32u rd rs1 rs2) s = .next t ∧
    ElementsBy (IsSrlu (lowFive (s.readReg rs2))) (s.readReg rs1) v ∧ WritesOnly s t rd v ∧
    t.ov = s.ov) ∧
  (∀ t rs1 rd : BitVec 5, decodeWord (0b0110001#7 ++ t ++ rs1 ++ 0b010#3 ++ rd ++ 0b1110111#7) =
    some (.srl32u rd.toFin rs1.toFin t.toFin)) ∧
  decodeWord 0x627322F7#32 = some (.srl32u 5 6 7) ∧
  (∀ s : State, s.readReg 6 = 0xFFFFFE0000000200#64 → s.readReg 7 = 0x000000000000000A#64 →
    ∃ t, exec (.srl32u 5 6 7) s = .next t ∧ t.readReg 5 = 0x0040000000000001#64)

/-! Laws across instructions. -/

/-- 95_test_vectors.md section 6: an immediate form equals its register counterpart, in x[rd], OV and everything else.
-/
def Obligations.ImmediateFormsMatchRegisterForms : Prop :=
  ∀ (rd rs1 rs2 : Reg) (n : Nat) (s : State), lowFive (s.readReg rs2) = n →
    exec (.kslli32 rd rs1 n) s = exec (.ksll32 rd rs1 rs2) s ∧
    exec (.slli32 rd rs1 n) s = exec (.sll32 rd rs1 rs2) s ∧
    exec (.srai32 rd rs1 n) s = exec (.sra32 rd rs1 rs2) s ∧
    exec (.srai32u rd rs1 n) s = exec (.sra32u rd rs1 rs2) s ∧
    exec (.srli32 rd rs1 n) s = exec (.srl32 rd rs1 rs2) s ∧
    exec (.srli32u rd rs1 n) s = exec (.srl32u rd rs1 rs2) s

/-- R57's table: the whole map from the six-bit pattern to the shift, for every state. -/
def Obligations.KslraMatchesTheShiftItSelects : Prop :=
  ∀ (rd rs1 rs2 : Reg) (p : Nat) (s : State), (s.readReg rs2).toNat % 64 = p →
    (p < 32 → exec (.kslra32 rd rs1 rs2) s = exec (.ksll32 rd rs1 rs2) s ∧
      exec (.kslra32u rd rs1 rs2) s = exec (.ksll32 rd rs1 rs2) s) ∧
    (p = 32 → exec (.kslra32 rd rs1 rs2) s = exec (.srai32 rd rs1 31) s ∧
      exec (.kslra32u rd rs1 rs2) s = exec (.srai32u rd rs1 31) s) ∧
    (33 ≤ p → exec (.kslra32 rd rs1 rs2) s = exec (.srai32 rd rs1 (64 - p)) s ∧
      exec (.kslra32u rd rs1 rs2) s = exec (.srai32u rd rs1 (64 - p)) s)

/-- 00_scope.md R8 and 10_state.md R13: what the new values of x[rd], OV and pc depend on. -/
def Obligations.SourcesDetermineTheResult : Prop :=
  ∀ (i : Instr) (s s' : State), s.readReg i.rs1 = s'.readReg i.rs1 →
    (∀ r, i.amount = .reg r → s.readReg r = s'.readReg r) →
    ∃ t t', exec i s = .next t ∧ exec i s' = .next t' ∧ t.readReg i.rd = t'.readReg i.rd ∧
      (s.ov = s'.ov → t.ov = t'.ov) ∧ (s.pc = s'.pc → t.pc = t'.pc)

/-- 30_encoding.md R39 and R40: bits 63:5, respectively 63:6, of x[rs2] are ignored. -/
def Obligations.AmountIgnoresHighBits : Prop :=
  ∀ (rd rs1 rs2 : Reg) (v : Word) (s : State), rs2 ≠ rs1 →
    (v.toNat % 32 = (s.readReg rs2).toNat % 32 →
      ∀ i ∈ [Instr.sll32 rd rs1 rs2, .sra32 rd rs1 rs2, .sra32u rd rs1 rs2, .srl32 rd rs1 rs2, .srl32u rd rs1 rs2,
        .ksll32 rd rs1 rs2],
      ∃ t t', exec i s = .next t ∧ exec i (s.writeReg rs2 v) = .next t' ∧ t.readReg rd = t'.readReg rd ∧ t.ov = t'.ov) ∧
    (v.toNat % 64 = (s.readReg rs2).toNat % 64 →
      ∀ i ∈ [Instr.kslra32 rd rs1 rs2, .kslra32u rd rs1 rs2],
      ∃ t t', exec i s = .next t ∧ exec i (s.writeReg rs2 v) = .next t' ∧ t.readReg rd = t'.readReg rd ∧ t.ov = t'.ov)

/-- 95_test_vectors.md section 6: a shift by zero is the identity for each of the 14. -/
def Obligations.ZeroAmountCopies : Prop :=
  ∀ (rd rs1 rs2 : Reg) (s : State),
    (∀ i ∈ [Instr.kslli32 rd rs1 0, .slli32 rd rs1 0, .srai32 rd rs1 0, .srai32u rd rs1 0, .srli32 rd rs1 0,
        .srli32u rd rs1 0],
      ∃ t, exec i s = .next t ∧ WritesOnly s t rd (s.readReg rs1) ∧ t.ov = s.ov) ∧
    ((s.readReg rs2).toNat % 32 = 0 →
      ∀ i ∈ [Instr.ksll32 rd rs1 rs2, .sll32 rd rs1 rs2, .sra32 rd rs1 rs2, .sra32u rd rs1 rs2, .srl32 rd rs1 rs2,
        .srl32u rd rs1 rs2],
      ∃ t, exec i s = .next t ∧ WritesOnly s t rd (s.readReg rs1) ∧ t.ov = s.ov) ∧
    ((s.readReg rs2).toNat % 64 = 0 →
      ∀ i ∈ [Instr.kslra32 rd rs1 rs2, .kslra32u rd rs1 rs2],
      ∃ t, exec i s = .next t ∧ WritesOnly s t rd (s.readReg rs1) ∧ t.ov = s.ov)

/-- 40_simd32_lane_operations.md R50: there is no cross-lane data movement. -/
def Obligations.ElementsAreIndependent : Prop :=
  ∀ (i : Instr) (s s' : State), (∀ r, i.amount = .reg r → s.readReg r = s'.readReg r) →
    ∃ t t', exec i s = .next t ∧ exec i s' = .next t' ∧
      ((s.readReg i.rs1).extractLsb' 32 32 = (s'.readReg i.rs1).extractLsb' 32 32 →
        (t.readReg i.rd).extractLsb' 32 32 = (t'.readReg i.rd).extractLsb' 32 32) ∧
      ((s.readReg i.rs1).extractLsb' 0 32 = (s'.readReg i.rs1).extractLsb' 0 32 →
        (t.readReg i.rd).extractLsb' 0 32 = (t'.readReg i.rd).extractLsb' 0 32)

/-! Registers, the program counter and OV. -/

/-- 60_exceptions.md R90: none of the 14 raises a synchronous exception under any operand values; R98: none needs a
privilege. -/
def Obligations.EveryInstructionAnswersANextState : Prop :=
  ∀ (i : Instr) (s : State), ∃ t, exec i s = .next t

/-- 10_state.md R16: none of the 14 is a branch, jump, call or return. -/
def Obligations.PcAdvancesByFour : Prop :=
  ∀ (i : Instr) (s : State), ∃ t, exec i s = .next t ∧ t.pc = BitVec.ofNat 64 (s.pc.toNat + 4)

/-- 10_state.md R12: register 0, the discarded write, and the other effects that still happen. -/
def Obligations.RegisterZeroIsHardwired : Prop :=
  (∀ s : State, s.readReg 0 = 0#64) ∧
  (∀ (s : State) (v : Word), s.writeReg 0 v = s) ∧
  ∀ (i : Instr) (s : State), i.rd = 0 → ∃ t, exec i s = .next t ∧
    (∀ r, t.readReg r = s.readReg r) ∧ t.pc = BitVec.ofNat 64 (s.pc.toNat + 4) ∧
    (t.ov = true ↔ s.ov = true ∨ saturates i s)

/-- 30_encoding.md R44: rd = 0 is no hint. -/
def Obligations.RdZeroChangesPcAndAtMostOv : Prop :=
  ∀ (i : Instr) (s : State), i.rd = 0 →
    (i.mnemonic ∉ saturatingMnemonics → exec i s = .next { s with pc := s.pc + 4#64 }) ∧
    (saturates i s → exec i s = .next { s with pc := s.pc + 4#64, ov := true })

/-- 10_state.md R18: which instructions write OV, and that they only set it. -/
def Obligations.ExactlyFourInstructionsWriteOv : Prop :=
  (∀ m : Mnemonic, m ∈ [Mnemonic.kslli32, .ksll32, .kslra32, .kslra32u] ↔
    ∃ (i : Instr) (s t : State), i.mnemonic = m ∧ exec i s = .next t ∧ t.ov ≠ s.ov) ∧
  ∀ (i : Instr) (s t : State), exec i s = .next t → s.ov = true → t.ov = true

/-- 10_state.md R20: the ten leave OV alone and do not look at it. -/
def Obligations.TenInstructionsNeitherReadNorWriteOv : Prop :=
  ∀ (i : Instr) (s : State),
    i.mnemonic ∈ [Mnemonic.slli32, .sll32, .srai32, .srai32u, .sra32, .sra32u, .srli32, .srli32u, .srl32, .srl32u] →
    ∃ t, exec i s = .next t ∧ t.ov = s.ov ∧ ∀ b, exec i { s with ov := b } = .next { t with ov := b }

/-- 10_state.md R22: no result and no control decision of the 14 depends on OV. -/
def Obligations.NoResultDependsOnOv : Prop :=
  ∀ (i : Instr) (s : State) (b : Bool), ∃ t u, exec i s = .next t ∧ exec i { s with ov := b } = .next u ∧
    u.x = t.x ∧ u.pc = t.pc

/-- 10_state.md R19: OV is sticky, over every run from every state. -/
def Obligations.OvAfterRunExactlyWhenSetOrSaturated : Prop :=
  ∀ (n : Nat) (s t : State), run n s = .next t →
    (t.ov = true ↔ s.ov = true ∨ ∃ k < n, ∃ u i, run k s = .next u ∧ u.nextInstr = some i ∧ saturates i u)

/-! The instruction memory, the step and runs. -/

/-- 20_memory.md R25 and R34: the fetch primitive and its byte order. That a word is in the domain of IMEM when its
four bytes are listed is the model's reading (assumption log entry 2). -/
def Obligations.FetchReadsFourBytesLittleEndian : Prop :=
  ∀ (m : Memory) (a : Addr) (w : InstrWord), a.toNat % 4 = 0 →
    (m.fetchWord a = some w ↔ ∀ k < 4, m.read (a.toNat + k) = some (w.extractLsb' (8 * k) 8))

/-- The host's load before a run (60_exceptions.md R104) against the fetch of 20_memory.md R34. Loading is the model's
own operation (assumption log entry 8). -/
def Obligations.LoadedWordIsFetched : Prop :=
  ∀ (m : Memory) (a : Addr) (w : InstrWord), a.toNat % 4 = 0 →
    (m.storeWord a w).fetchWord a = some w ∧
    (∀ b : Addr, b.toNat % 4 = 0 → b ≠ a → (m.storeWord a w).fetchWord b = m.fetchWord b) ∧
    (m.wf → (m.storeWord a w).wf)

/-- 70_reset_and_hazards.md R114: fetch, decode, execute. The meaning itself moves pc past the instruction. -/
def Obligations.StepRunsTheDecodedInstruction : Prop :=
  ∀ (s : State) (w : InstrWord) (i : Instr), s.Running → s.imem.fetchWord s.pc = some w →
    decodeWord w = some i → i.WellFormed → step s = exec i s

/-- 70_reset_and_hazards.md R114 (1), in both directions. -/
def Obligations.StepIsStuckOutsideImem : Prop :=
  ∀ s : State, s.Running → (step s = .fault (.stuck s.pc) ↔ s.imem.fetchWord s.pc = none)

/-- 30_encoding.md R43: not an illegal instruction and not a no-op. -/
def Obligations.StepRefusesEveryOtherWord : Prop :=
  ∀ (s : State) (w : InstrWord), s.Running → s.imem.fetchWord s.pc = some w →
    (∀ v ∈ [0x50002077#32, 0x52002077#32, 0x54002077#32, 0x56002077#32, 0x60002077#32, 0x62002077#32, 0x64002077#32,
        0x66002077#32, 0x70002077#32, 0x72002077#32, 0x74002077#32, 0x80002077#32, 0x82002077#32, 0x84002077#32],
      w &&& 0xFE00707F#32 ≠ v) →
    step s = .refused (.notAdmitted s.pc w)

/-- 70_reset_and_hazards.md R115. That a final state shows as a fault of its own is the model's choice (assumption log
entry 9). -/
def Obligations.RunEndsExactlyAtEndPc : Prop :=
  ∀ s : State, (step s = .fault .endOfRun ↔ s.pc = s.endPc) ∧
    (s.pc = s.endPc → s.observe = some (s.x, s.ov)) ∧
    (s.pc ≠ s.endPc → s.observe = none) ∧
    ((∃ p, step s = .fault (.stuck p)) ∨ (∃ r, step s = .refused r) → s.observe = none)

/-- The model's choice (assumption log entry 10) where 20_memory.md R27 defines no behaviour. -/
def Obligations.MisalignedPcStops : Prop :=
  ∀ s : State, s.pc ≠ s.endPc → s.pc.toNat % 4 ≠ 0 → step s = .fault (.misalignedPc s.pc)

/-- 10_state.md R12, R17 and 20_memory.md R33, inductively over every state. -/
def Obligations.StepKeepsTheInvariant : Prop :=
  ∀ s t : State, s.Inv → step s = .next t → t.Inv

/-- The values the spec leaves open are the model's choice (assumption log entries 4 to 7); x[0] and the alignments
are R111's. -/
def Obligations.ResetMeetsTheInvariant : Prop :=
  State.reset.Inv ∧ State.reset.Admissible

/-- 70_reset_and_hazards.md R111: the launch premises, for every value the spec leaves open. -/
def Obligations.LaunchStatesAreAdmissible : Prop :=
  ∀ (x : Vector Word 32) (ov : Bool) (pc endPc : Addr) (m : Memory), pc.toNat % 4 = 0 → endPc.toNat % 4 = 0 → m.wf →
    (State.launch x ov pc endPc m).Admissible ∧ (State.launch x ov pc endPc m).Inv ∧
    (State.launch x ov pc endPc m).ov = ov ∧
    ∀ r : Reg, (State.launch x ov pc endPc m).readReg r = if r = 0 then 0#64 else x[r.val]

/-- 70_reset_and_hazards.md R116: termination of a straight-line run, for every n and every content of IMEM. That the
final state's step answers the fault endOfRun is the model's choice (assumption log entry 9). -/
def Obligations.StraightLineRunEndsAtEndPc : Prop :=
  ∀ (n : Nat) (s : State), s.Admissible → s.pc.toNat + 4 * n < 2 ^ 64 →
    s.endPc = s.pc + BitVec.ofNat 64 (4 * n) →
    (∀ k < n, ∃ w i, s.imem.fetchWord (s.pc + BitVec.ofNat 64 (4 * k)) = some w ∧ decodeWord w = some i) →
    (∃ t, run n s = .next t ∧ t.pc = s.endPc ∧ step t = .fault .endOfRun) ∧
    ∀ k < n, ∃ u, run k s = .next u ∧ u.pc ≠ s.endPc

/-- 70_reset_and_hazards.md R116, its last sentence. -/
def Obligations.RunIsStuckAtTheFirstHole : Prop :=
  ∀ (n : Nat) (s : State), s.pc.toNat % 4 = 0 →
    (∀ k ≤ n, s.pc + BitVec.ofNat 64 (4 * k) ≠ s.endPc) →
    (∀ k < n, ∃ w i, s.imem.fetchWord (s.pc + BitVec.ofNat 64 (4 * k)) = some w ∧ decodeWord w = some i) →
    s.imem.fetchWord (s.pc + BitVec.ofNat 64 (4 * n)) = none →
    ∃ t, run n s = .next t ∧ t.pc = s.pc + BitVec.ofNat 64 (4 * n) ∧ step t = .fault (.stuck t.pc)

/-- 10_state.md R10 and 20_memory.md R33: IMEM and END_PC are parameters that no step changes. -/
def Obligations.RunKeepsImemAndCountsPc : Prop :=
  ∀ (n : Nat) (s t : State), run n s = .next t →
    t.imem = s.imem ∧ t.endPc = s.endPc ∧ (∀ a, t.imem.fetchWord a = s.imem.fetchWord a) ∧
    t.pc = s.pc + BitVec.ofNat 64 (4 * n)

/-! The C intrinsics. -/

/-- 43_c_intrinsics.md R82 and R84: the call as a function of (a, b, OV) against the machine. The mapping and the
widths are UNVERIFIED: the spec takes them from general knowledge (assumption log entry 21). -/
def Obligations.IntrinsicCallRunsItsInstruction : Prop :=
  (∀ (m : Mnemonic) (rd rs1 rs2 : Reg) (b : BitVec 32) (i : Instr) (s : State), rd ≠ 0 →
    intrinsicInstr m rd rs1 rs2 b = some i → (takesImm m = false → s.readReg rs2 = widenB b) →
    ∃ t r o, exec i s = .next t ∧ intrinsicCall m (s.readReg rs1) b s.ov = some (r, o) ∧
      t.readReg rd = r ∧ t.ov = o) ∧
  ∀ (m : Mnemonic) (rd rs1 rs2 : Reg) (b : BitVec 32),
    intrinsicInstr m rd rs1 rs2 b = none ↔ takesImm m = true ∧ 32 ≤ b.toNat

/-- 43_c_intrinsics.md R83: what values of b behave alike. -/
def Obligations.IntrinsicAmountsActModulo64 : Prop :=
  ∀ m ∈ [Mnemonic.kslra32, .kslra32u], ∀ (a : Word) (ov : Bool),
    (∀ b b' : BitVec 32, b.toNat % 64 = b'.toNat % 64 → intrinsicCall m a b ov = intrinsicCall m a b' ov) ∧
    intrinsicCall m a (BitVec.ofInt 32 (-32)) ov = intrinsicCall m a (BitVec.ofInt 32 (-31)) ov ∧
    intrinsicCall m a 64#32 ov = some (a, ov)
end

