-- ==== Sys2Proof/Laws/Decode.lean ====
section
/-! SUPPORT. The fields of a laid-out word, the rows of the table, and the bytes of a word. -/

namespace Sys2Proof

/-- Bits of R36's layout, from the opcode up. -/
theorem getLsbD_layout (f : BitVec 7) (t a d : BitVec 5) (k : Nat) :
    (layout f t a d).getLsbD k =
      if k < 7 then (0b1110111#7).getLsbD k
      else if k < 12 then d.getLsbD (k - 7)
      else if k < 15 then (0b010#3).getLsbD (k - 12)
      else if k < 20 then a.getLsbD (k - 15)
      else if k < 25 then t.getLsbD (k - 20)
      else f.getLsbD (k - 25) := by
  have h : (layout f t a d).getLsbD k = (f ++ t ++ a ++ 0b010#3 ++ d ++ 0b1110111#7).getLsbD k := rfl
  rw [h]
  simp only [BitVec.getLsbD_append, Nat.sub_sub]
  by_cases h1 : k < 7
  · simp [h1]
  · by_cases h2 : k < 12
    · simp [h1, h2, show k - 7 < 5 by omega]
    · by_cases h3 : k < 15
      · simp [h1, h2, h3, show ¬ k - 7 < 5 by omega, show k - (7 + 5) < 3 by omega]
      · by_cases h4 : k < 20
        · simp [h1, h2, h3, h4, show ¬ k - 7 < 5 by omega, show ¬ k - (7 + 5) < 3 by omega,
            show k - (7 + 5 + 3) < 5 by omega]
        · by_cases h5 : k < 25
          · simp [h1, h2, h3, h4, h5, show ¬ k - 7 < 5 by omega, show ¬ k - (7 + 5) < 3 by omega,
              show ¬ k - (7 + 5 + 3) < 5 by omega, show k - (7 + 5 + 3 + 5) < 5 by omega]
          · simp [h1, h2, h3, h4, h5, show ¬ k - 7 < 5 by omega, show ¬ k - (7 + 5) < 3 by omega,
              show ¬ k - (7 + 5 + 3) < 5 by omega, show ¬ k - (7 + 5 + 3 + 5) < 5 by omega]

theorem layout_bits_0_6 (f : BitVec 7) (t a d : BitVec 5) :
    (layout f t a d).extractLsb' 0 7 = 0b1110111#7 := by
  apply BitVec.eq_of_getLsbD_eq; intro k hk
  simp [getLsbD_layout, hk]

theorem layout_bits_7_11 (f : BitVec 7) (t a d : BitVec 5) : (layout f t a d).extractLsb' 7 5 = d := by
  apply BitVec.eq_of_getLsbD_eq; intro k hk
  simp [getLsbD_layout, hk, show 7 + k < 12 by omega]

theorem layout_bits_12_14 (f : BitVec 7) (t a d : BitVec 5) : (layout f t a d).extractLsb' 12 3 = 0b010#3 := by
  apply BitVec.eq_of_getLsbD_eq; intro k hk
  simp [getLsbD_layout, hk, show ¬ 12 + k < 7 by omega, show 12 + k < 15 by omega]

theorem layout_bits_15_19 (f : BitVec 7) (t a d : BitVec 5) : (layout f t a d).extractLsb' 15 5 = a := by
  apply BitVec.eq_of_getLsbD_eq; intro k hk
  simp [getLsbD_layout, hk, show ¬ 15 + k < 7 by omega, show ¬ 15 + k < 12 by omega,
    show 15 + k < 20 by omega]

theorem layout_bits_20_24 (f : BitVec 7) (t a d : BitVec 5) : (layout f t a d).extractLsb' 20 5 = t := by
  apply BitVec.eq_of_getLsbD_eq; intro k hk
  simp [getLsbD_layout, hk, show ¬ 20 + k < 7 by omega, show ¬ 20 + k < 12 by omega,
    show ¬ 20 + k < 15 by omega, show 20 + k < 25 by omega]

theorem layout_bits_25_31 (f : BitVec 7) (t a d : BitVec 5) : (layout f t a d).extractLsb' 25 7 = f := by
  apply BitVec.eq_of_getLsbD_eq; intro k hk
  simp [getLsbD_layout, hk, show ¬ 25 + k < 7 by omega, show ¬ 25 + k < 12 by omega,
    show ¬ 25 + k < 15 by omega, show ¬ 25 + k < 20 by omega]

@[simp] theorem rdField_layout (f : BitVec 7) (t a d : BitVec 5) : rdField (layout f t a d) = d.toFin := by
  rw [rdField, layout_bits_7_11]

@[simp] theorem rs1Field_layout (f : BitVec 7) (t a d : BitVec 5) : rs1Field (layout f t a d) = a.toFin := by
  rw [rs1Field, layout_bits_15_19]

@[simp] theorem rs2Field_layout (f : BitVec 7) (t a d : BitVec 5) : rs2Field (layout f t a d) = t.toFin := by
  rw [rs2Field, layout_bits_20_24]

@[simp] theorem imm5uField_layout (f : BitVec 7) (t a d : BitVec 5) : imm5uField (layout f t a d) = t.toNat := by
  rw [imm5uField, layout_bits_20_24]

/-- Every word is the layout of its own fields where its opcode and funct3 are the group's. -/
theorem layout_of_fields {w : InstrWord} (ho : w.extractLsb' 0 7 = 0b1110111#7) (hf : w.extractLsb' 12 3 = 0b010#3) :
    layout (w.extractLsb' 25 7) (w.extractLsb' 20 5) (w.extractLsb' 15 5) (w.extractLsb' 7 5) = w := by
  apply BitVec.eq_of_getLsbD_eq
  intro k hk
  rw [getLsbD_layout, ← ho, ← hf]
  simp only [BitVec.getLsbD_extractLsb']
  split
  · simp [*]
  split
  · rw [show 7 + (k - 7) = k by omega]; simp; omega
  split
  · rw [show 12 + (k - 12) = k by omega]; simp; omega
  split
  · rw [show 15 + (k - 15) = k by omega]; simp; omega
  split
  · rw [show 20 + (k - 20) = k by omega]; simp; omega
  · rw [show 25 + (k - 25) = k by omega]; simp; omega

/-- The `match` words of rule R41's table are pairwise distinct (R42): at most one row matches a word. -/
theorem encTable_matchWords_nodup : (encTable.map EncRow.matchWord).Nodup := by decide

/-- Every mnemonic has exactly one row. -/
theorem encTable_mnemonics_nodup : (encTable.map EncRow.mnemonic).Nodup := by decide

/-- The two columns of rule R41 agree: a row's `match` is its funct7 laid out over zero operand fields. -/
theorem encTable_matchWord_eq : ∀ r ∈ encTable, r.matchWord = layout r.mnemonic.funct7 0 0 0 := by decide

/-- What a decoded word is: its row stands in the table and the word matches it. -/
theorem decodeWord_eq_some {w : InstrWord} {i : Instr} (h : decodeWord w = some i) :
    ∃ r ∈ encTable, w &&& encMask = r.matchWord ∧ i = r.mnemonic.fromWord w := by
  unfold decodeWord decodeWith matchRow at h
  obtain ⟨r, hr, rfl⟩ := Option.map_eq_some_iff.1 h
  refine ⟨r, List.mem_of_find?_eq_some hr, ?_, rfl⟩
  simpa using List.find?_some hr

/-- A word that is not decoded matches no row (R43). -/
theorem decodeWord_eq_none {w : InstrWord} : decodeWord w = none ↔ ∀ r ∈ encTable, w &&& encMask ≠ r.matchWord := by
  simp [decodeWord, decodeWith, matchRow]

@[simp] theorem fromWord_mnemonic (m : Mnemonic) (w : InstrWord) : (m.fromWord w).mnemonic = m := by
  cases m <;> rfl

@[simp] theorem fromWord_rd (m : Mnemonic) (w : InstrWord) : (m.fromWord w).rd = rdField w := by
  cases m <;> rfl

@[simp] theorem fromWord_rs1 (m : Mnemonic) (w : InstrWord) : (m.fromWord w).rs1 = rs1Field w := by
  cases m <;> rfl

end Sys2Proof
end

