-- ==== Sys2Proof/Laws/Lanes.lean ====
section
/-! SUPPORT. What each element-level operation gives, bit by bit or as its cases. -/

namespace Sys2Proof.Machine

/-- Bits of a packed register value (R50). -/
theorem getLsbD_pack (hi lo : Elem) (k : Nat) :
    (pack hi lo).getLsbD k = if k < 32 then lo.getLsbD k else hi.getLsbD (k - 32) := by
  have h := BitVec.getLsbD_append (x := hi) (y := lo) (i := k)
  rw [show (pack hi lo).getLsbD k = (hi ++ lo).getLsbD k from rfl, h]

@[simp] theorem upper_pack (hi lo : Elem) : upper (pack hi lo) = hi := by
  apply BitVec.eq_of_getLsbD_eq
  intro k hk
  simp [upper, getLsbD_pack, hk]

@[simp] theorem lower_pack (hi lo : Elem) : lower (pack hi lo) = lo := by
  apply BitVec.eq_of_getLsbD_eq
  intro k hk
  simp [lower, getLsbD_pack, hk]

theorem pack_upper_lower (v : Word) : pack (upper v) (lower v) = v := by
  apply BitVec.eq_of_getLsbD_eq
  intro k hk
  rw [getLsbD_pack]
  split
  · rename_i h; simp [lower, h]
  · have h1 : k - 32 < 32 := by omega
    have h2 : 32 + (k - 32) = k := by omega
    simp [upper, h1, h2]

/-- Bits of a left shift (R51). -/
theorem getLsbD_sllLane (w : Elem) (sa k : Nat) (hk : k < 32) :
    (sllLane w sa).getLsbD k = (decide (sa ≤ k) && w.getLsbD (k - sa)) := by
  have : sllLane w sa = w <<< sa := by
    apply BitVec.eq_of_toNat_eq; simp [sllLane, Nat.shiftLeft_eq]
  rw [this, BitVec.getLsbD_shiftLeft]
  by_cases h : sa ≤ k
  · simp [hk, h, Nat.not_lt.2 h]
  · simp [h, Nat.lt_of_not_le h]

/-- Bits of an arithmetic right shift (R52). -/
theorem getLsbD_sraLane (w : Elem) {sa k : Nat} (hsa : sa < 32) (hk : k < 32) :
    (sraLane w sa).getLsbD k = w.getLsbD (min (k + sa) 31) := by
  unfold sraLane
  split
  · rename_i h; subst h; congr 1; omega
  · rw [BitVec.getLsbD_signExtend]
    by_cases h : k < 32 - sa
    · have : min (k + sa) 31 = sa + k := by omega
      simp [hk, h, this]
    · have h1 : min (k + sa) 31 = 31 := by omega
      have h2 : sa + (32 - sa - 1) = 31 := by omega
      simp [hk, h, h1, BitVec.msb_eq_getLsbD_last, h2]
      omega

/-- Bits of a logical right shift (R54). -/
theorem getLsbD_srlLane (w : Elem) {sa k : Nat} (hsa : sa < 32) (hk : k < 32) :
    (srlLane w sa).getLsbD k = (decide (k + sa < 32) && w.getLsbD (k + sa)) := by
  unfold srlLane
  split
  · rename_i h; subst h; simp [hk]
  · by_cases h : k + sa < 32
    · have : k < 32 - sa := by omega
      have h' : sa + k < 32 := by omega
      simp [hk, h', this, Nat.add_comm k sa]
    · have : ¬ k < 32 - sa := by omega
      simp [h, this]

/-- The cases of a saturating left shift (R56), said once. -/
theorem ksllLane_cases (w : Elem) (sa : Nat) :
    (2 ^ 31 - 1 < w.toInt * 2 ^ sa ∧ ksllLane w sa = (0x7FFFFFFF#32, true)) ∨
    (w.toInt * 2 ^ sa < -(2 ^ 31) ∧ ksllLane w sa = (0x80000000#32, true)) ∨
    (w.toInt * 2 ^ sa ≤ 2 ^ 31 - 1 ∧ -(2 ^ 31) ≤ w.toInt * 2 ^ sa ∧
      ksllLane w sa = (BitVec.ofInt 32 (w.toInt * 2 ^ sa), false)) := by
  unfold ksllLane
  simp only [gt_iff_lt]
  split
  · exact .inl ⟨‹_›, rfl⟩
  · split
    · exact .inr (.inl ⟨‹_›, rfl⟩)
    · exact .inr (.inr ⟨by omega, by omega, rfl⟩)

/-- A negative amount shifts right (R57). -/
theorem kslraLane_neg (w : Elem) {amt : Int} (h : amt < 0) (u : Bool) :
    kslraLane w amt u =
      (if u then srauLane w (if amt = -32 then 31 else (-amt).toNat)
        else sraLane w (if amt = -32 then 31 else (-amt).toNat), false) := by
  simp [kslraLane, h]

/-- Any other amount is a saturating left shift (R57). -/
theorem kslraLane_nonneg (w : Elem) {amt : Int} (h : 0 ≤ amt) (u : Bool) :
    kslraLane w amt u = ksllLane w amt.toNat := by
  simp [kslraLane, Int.not_lt.2 h]

end Sys2Proof.Machine
end

