-- ==== Sys2Proof/Laws/Memory.lean ====
section
/-! SUPPORT. The instruction memory: read after write, and that every operation keeps the canonical form. -/

namespace Sys2Proof.Machine

theorem read_write_same (m : Memory) (a : Nat) (b : Byte) : (m.write a b).read a = some b := by
  induction m with
  | nil => simp [Memory.write, Memory.read]
  | cons c m ih =>
    obtain ⟨k, c⟩ := c
    simp only [Memory.write]
    split
    · simp [Memory.read]
    · split
      · simp [Memory.read]
      · rename_i h; simp [Memory.read, h, ih]

theorem read_write_other (m : Memory) {a a' : Nat} (b : Byte) (h : a' ≠ a) :
    (m.write a b).read a' = m.read a' := by
  induction m with
  | nil => simp [Memory.write, Memory.read, h]
  | cons c m ih =>
    obtain ⟨k, c⟩ := c
    simp only [Memory.write]
    split
    · simp [Memory.read, h]
    · split
      · rename_i e; subst e; simp [Memory.read, h]
      · simp [Memory.read, ih]

/-- Read of one byte after a write of one byte. -/
theorem read_write (m : Memory) (a a' : Nat) (b : Byte) :
    (m.write a b).read a' = if a' = a then some b else m.read a' := by
  split
  · rename_i h; subst h; exact read_write_same m a' b
  · rename_i h; exact read_write_other m b h

theorem mem_write {m : Memory} {a : Nat} {b : Byte} {c : Host.Cell} (h : c ∈ m.write a b) :
    c = (a, b) ∨ c ∈ m := by
  induction m with
  | nil => simpa [Memory.write] using h
  | cons d m ih =>
    obtain ⟨k, d⟩ := d
    simp only [Memory.write] at h
    split at h
    · simpa using h
    · split at h
      · simp at h ⊢; tauto
      · simp at h ⊢; tauto

/-- A write of a 64-bit address keeps the canonical form. -/
theorem write_wf {m : Memory} (hm : m.wf) {a : Nat} (ha : a < 2 ^ 64) (b : Byte) : (m.write a b).wf := by
  refine ⟨?_, fun c hc => ?_⟩
  · have hs := hm.1
    rw [List.pairwise_map] at hs ⊢
    clear hm
    induction m with
    | nil => simp [Memory.write]
    | cons d m ih =>
      obtain ⟨k, d⟩ := d
      have hs' := List.pairwise_cons.1 hs
      simp only [Memory.write]
      split
      · rename_i h
        refine List.pairwise_cons.2 ⟨fun c hc => ?_, hs⟩
        rcases List.mem_cons.1 hc with rfl | hc
        · exact h
        · exact lt_trans h (hs'.1 c hc)
      · split
        · rename_i h; subst h
          exact List.pairwise_cons.2 ⟨fun c hc => hs'.1 c hc, hs'.2⟩
        · refine List.pairwise_cons.2 ⟨fun c hc => ?_, ih hs'.2⟩
          rcases mem_write hc with rfl | hc
          · show k < a; omega
          · exact hs'.1 c hc
  · rcases mem_write hc with rfl | hc
    · exact ha
    · exact hm.2 c hc

theorem byteAddr_lt (a : Addr) (k : Nat) : byteAddr a k < 2 ^ 64 := BitVec.isLt _

/-- The host's load of a word keeps the canonical form. -/
theorem storeWord_wf {m : Memory} (hm : m.wf) (a : Addr) (w : InstrWord) : (m.storeWord a w).wf :=
  write_wf (write_wf (write_wf (write_wf hm (byteAddr_lt a 0) _) (byteAddr_lt a 1) _) (byteAddr_lt a 2) _)
    (byteAddr_lt a 3) _

theorem storeWords_wf {m : Memory} (hm : m.wf) (a : Addr) (ws : List InstrWord) : (m.storeWords a ws).wf := by
  induction ws generalizing m a with
  | nil => exact hm
  | cons w ws ih => exact ih (storeWord_wf hm a w) _

/-- IMEM after reset has the canonical form. -/
theorem reset_imem_wf : State.reset.imem.wf := by decide

theorem aligned_iff (a : Addr) : aligned a = true ↔ a.toNat % 4 = 0 := by
  have : (a &&& 3#64).toNat = a.toNat % 4 := by
    rw [BitVec.toNat_and]; exact Nat.and_two_pow_sub_one_eq_mod _ 2
  simp [aligned, ← this, BitVec.toNat_eq]

/-- The bytes of an aligned word do not wrap. -/
theorem byteAddr_of_aligned {a : Addr} (h : a.toNat % 4 = 0) {k : Nat} (hk : k < 4) :
    byteAddr a k = a.toNat + k := by
  have := a.isLt
  simp only [byteAddr, BitVec.toNat_add, BitVec.toNat_ofNat]
  omega

/-- A fetch gives a word exactly when all four bytes are there. -/
theorem fetchWord_eq_some {m : Memory} {a : Addr} {w : InstrWord} :
    m.fetchWord a = some w ↔ ∃ b0 b1 b2 b3, m.read (byteAddr a 0) = some b0 ∧ m.read (byteAddr a 1) = some b1 ∧
      m.read (byteAddr a 2) = some b2 ∧ m.read (byteAddr a 3) = some b3 ∧ w = wordOfBytes b0 b1 b2 b3 := by
  unfold Memory.fetchWord
  split
  · rename_i b0 b1 b2 b3 h0 h1 h2 h3
    simp [h0, h1, h2, h3, eq_comm]
  · rename_i h
    simp only [false_iff, reduceCtorEq]
    rintro ⟨b0, b1, b2, b3, h0, h1, h2, h3, -⟩
    exact h b0 b1 b2 b3 h0 h1 h2 h3

end Sys2Proof.Machine
end

