-- ==== Sys2Proof/Laws/State.lean ====
section
/-! SUPPORT. The fields of every update, and what a register reads as after one. -/

namespace Sys2Proof.Machine

@[simp] theorem advancePc_x (s : State) : s.advancePc.x = s.x := rfl
@[simp] theorem advancePc_pc (s : State) : s.advancePc.pc = s.pc + 4#64 := rfl
@[simp] theorem advancePc_ov (s : State) : s.advancePc.ov = s.ov := rfl
@[simp] theorem advancePc_imem (s : State) : s.advancePc.imem = s.imem := rfl
@[simp] theorem advancePc_endPc (s : State) : s.advancePc.endPc = s.endPc := rfl

@[simp] theorem writeReg_zero (s : State) (v : Word) : s.writeReg 0 v = s := rfl

theorem writeReg_of_ne {s : State} {r : Reg} (h : r ≠ 0) (v : Word) :
    s.writeReg r v = { s with x := s.x.set r.val v } := if_neg h

@[simp] theorem writeReg_pc (s : State) (r : Reg) (v : Word) : (s.writeReg r v).pc = s.pc := by
  unfold State.writeReg; split <;> rfl
@[simp] theorem writeReg_ov (s : State) (r : Reg) (v : Word) : (s.writeReg r v).ov = s.ov := by
  unfold State.writeReg; split <;> rfl
@[simp] theorem writeReg_imem (s : State) (r : Reg) (v : Word) : (s.writeReg r v).imem = s.imem := by
  unfold State.writeReg; split <;> rfl
@[simp] theorem writeReg_endPc (s : State) (r : Reg) (v : Word) : (s.writeReg r v).endPc = s.endPc := by
  unfold State.writeReg; split <;> rfl

/-- The slot of x[0] is never written. -/
@[simp] theorem writeReg_slot_zero (s : State) (r : Reg) (v : Word) : (s.writeReg r v).x[0] = s.x[0] := by
  by_cases h : r = 0
  · subst h; rfl
  · have : r.val ≠ 0 := fun e => h (Fin.ext e)
    rw [writeReg_of_ne h]
    simp [this]

@[simp] theorem setOvIf_x (s : State) (a b : Bool) : (s.setOvIf a b).x = s.x := by
  unfold State.setOvIf; split <;> rfl
@[simp] theorem setOvIf_pc (s : State) (a b : Bool) : (s.setOvIf a b).pc = s.pc := by
  unfold State.setOvIf; split <;> rfl
@[simp] theorem setOvIf_imem (s : State) (a b : Bool) : (s.setOvIf a b).imem = s.imem := by
  unfold State.setOvIf; split <;> rfl
@[simp] theorem setOvIf_endPc (s : State) (a b : Bool) : (s.setOvIf a b).endPc = s.endPc := by
  unfold State.setOvIf; split <;> rfl
@[simp] theorem setOvIf_ov (s : State) (a b : Bool) : (s.setOvIf a b).ov = (s.ov || a || b) := by
  unfold State.setOvIf; cases a <;> cases b <;> simp
@[simp] theorem setOvIf_false (s : State) : s.setOvIf false false = s := rfl

@[simp] theorem readReg_advancePc (s : State) (r : Reg) : s.advancePc.readReg r = s.readReg r := rfl
@[simp] theorem readReg_setOvIf (s : State) (a b : Bool) (r : Reg) :
    (s.setOvIf a b).readReg r = s.readReg r := by
  simp [State.readReg]

/-- The register file is the only thing a register read looks at. -/
theorem readReg_congr {s t : State} (h : s.x = t.x) (r : Reg) : s.readReg r = t.readReg r := by
  simp [State.readReg, h]

/-- What a register reads as after a write. -/
theorem readReg_writeReg (s : State) (d r : Reg) (v : Word) :
    (s.writeReg d v).readReg r = if r = d ∧ r ≠ 0 then v else s.readReg r := by
  by_cases hd : d = 0
  · subst hd; by_cases hr : r = 0 <;> simp [hr]
  · by_cases hr : r = 0
    · simp [State.readReg, hr]
    · have : d.val = r.val ↔ r = d := ⟨fun e => Fin.ext e.symm, fun e => by rw [e]⟩
      simp [State.readReg, writeReg_of_ne hd, hr, Vector.getElem_set, this]

@[simp] theorem withFetchWord_x (s : State) (n w : Nat) : (s.withFetchWord n w).x = s.x := rfl
@[simp] theorem withFetchWord_ov (s : State) (n w : Nat) : (s.withFetchWord n w).ov = s.ov := rfl
@[simp] theorem withFetchWord_pc (s : State) (n w : Nat) : (s.withFetchWord n w).pc = alignDown s.pc := rfl
@[simp] theorem withFetchWord_imem (s : State) (n w : Nat) :
    (s.withFetchWord n w).imem = s.imem.storeWord (alignDown s.pc) (tableWord n w) := rfl

@[simp] theorem launch_pc (x : Vector Word 32) (o : Bool) (p e : Addr) (m : Memory) :
    (State.launch x o p e m).pc = p := rfl
@[simp] theorem launch_endPc (x : Vector Word 32) (o : Bool) (p e : Addr) (m : Memory) :
    (State.launch x o p e m).endPc = e := rfl
@[simp] theorem launch_ov (x : Vector Word 32) (o : Bool) (p e : Addr) (m : Memory) :
    (State.launch x o p e m).ov = o := rfl
@[simp] theorem launch_imem (x : Vector Word 32) (o : Bool) (p e : Addr) (m : Memory) :
    (State.launch x o p e m).imem = m := rfl
@[simp] theorem launch_x (x : Vector Word 32) (o : Bool) (p e : Addr) (m : Memory) :
    (State.launch x o p e m).x = x.set 0 0#64 := rfl

end Sys2Proof.Machine
end

