-- ==== Sys2Proof/Laws/Exec.lean ====
section
/-! SUPPORT. What the shared shapes of a meaning, an instruction and a step can do, said once. -/

namespace Sys2Proof.Machine

/-- What an instruction that leaves OV alone does. -/
theorem laneOp_next {f : Elem → Elem} {rd rs1 : Reg} {s t : State} (h : laneOp f rd rs1 s = .next t) :
    t = (s.writeReg rd (pack (f (upper (s.readReg rs1))) (f (lower (s.readReg rs1))))).advancePc := by
  simpa [laneOp, lanes, eq_comm] using h

/-- What a saturating instruction does. -/
theorem satLaneOp_next {f : Elem → Elem × Bool} {rd rs1 : Reg} {s t : State} (h : satLaneOp f rd rs1 s = .next t) :
    t = ((s.writeReg rd (pack (f (upper (s.readReg rs1))).1 (f (lower (s.readReg rs1))).1)).setOvIf
      (f (upper (s.readReg rs1))).2 (f (lower (s.readReg rs1))).2).advancePc := by
  simpa [satLaneOp, eq_comm] using h

/-! Each instruction as its shared shape. -/

@[simp] theorem exec_kslli32 (rd rs1 : Reg) (n : Nat) (s : State) :
    exec (.kslli32 rd rs1 n) s = satLaneOp (fun w => ksllLane w (immAmount n)) rd rs1 s := rfl
@[simp] theorem exec_slli32 (rd rs1 : Reg) (n : Nat) (s : State) :
    exec (.slli32 rd rs1 n) s = laneOp (fun w => sllLane w (immAmount n)) rd rs1 s := rfl
@[simp] theorem exec_srai32 (rd rs1 : Reg) (n : Nat) (s : State) :
    exec (.srai32 rd rs1 n) s = laneOp (fun w => sraLane w (immAmount n)) rd rs1 s := rfl
@[simp] theorem exec_srai32u (rd rs1 : Reg) (n : Nat) (s : State) :
    exec (.srai32u rd rs1 n) s = laneOp (fun w => srauLane w (immAmount n)) rd rs1 s := rfl
@[simp] theorem exec_srli32 (rd rs1 : Reg) (n : Nat) (s : State) :
    exec (.srli32 rd rs1 n) s = laneOp (fun w => srlLane w (immAmount n)) rd rs1 s := rfl
@[simp] theorem exec_srli32u (rd rs1 : Reg) (n : Nat) (s : State) :
    exec (.srli32u rd rs1 n) s = laneOp (fun w => srluLane w (immAmount n)) rd rs1 s := rfl
@[simp] theorem exec_ksll32 (rd rs1 rs2 : Reg) (s : State) :
    exec (.ksll32 rd rs1 rs2) s = satLaneOp (fun w => ksllLane w (s.regAmount rs2)) rd rs1 s := rfl
@[simp] theorem exec_kslra32 (rd rs1 rs2 : Reg) (s : State) :
    exec (.kslra32 rd rs1 rs2) s = satLaneOp (fun w => kslraLane w (s.signedAmount rs2) false) rd rs1 s := rfl
@[simp] theorem exec_kslra32u (rd rs1 rs2 : Reg) (s : State) :
    exec (.kslra32u rd rs1 rs2) s = satLaneOp (fun w => kslraLane w (s.signedAmount rs2) true) rd rs1 s := rfl
@[simp] theorem exec_sll32 (rd rs1 rs2 : Reg) (s : State) :
    exec (.sll32 rd rs1 rs2) s = laneOp (fun w => sllLane w (s.regAmount rs2)) rd rs1 s := rfl
@[simp] theorem exec_sra32 (rd rs1 rs2 : Reg) (s : State) :
    exec (.sra32 rd rs1 rs2) s = laneOp (fun w => sraLane w (s.regAmount rs2)) rd rs1 s := rfl
@[simp] theorem exec_sra32u (rd rs1 rs2 : Reg) (s : State) :
    exec (.sra32u rd rs1 rs2) s = laneOp (fun w => srauLane w (s.regAmount rs2)) rd rs1 s := rfl
@[simp] theorem exec_srl32 (rd rs1 rs2 : Reg) (s : State) :
    exec (.srl32 rd rs1 rs2) s = laneOp (fun w => srlLane w (s.regAmount rs2)) rd rs1 s := rfl
@[simp] theorem exec_srl32u (rd rs1 rs2 : Reg) (s : State) :
    exec (.srl32u rd rs1 rs2) s = laneOp (fun w => srluLane w (s.regAmount rs2)) rd rs1 s := rfl

/-- What any instruction does where it answers a next state: it writes its destination, may set OV and advances pc. -/
theorem exec_next {i : Instr} {s t : State} (h : exec i s = .next t) :
    ∃ v a b, t = ((s.writeReg i.rd v).setOvIf a b).advancePc := by
  cases i <;> simp only [exec_kslli32, exec_slli32, exec_srai32, exec_srai32u, exec_srli32, exec_srli32u, exec_ksll32,
    exec_kslra32, exec_kslra32u, exec_sll32, exec_sra32, exec_sra32u, exec_srl32, exec_srl32u] at h
  case kslli32 | ksll32 | kslra32 | kslra32u => exact ⟨_, _, _, satLaneOp_next h⟩
  all_goals
    have ht := laneOp_next h
    exact ⟨_, false, false, by rw [setOvIf_false]; exact ht⟩

/-- What a step can do: it answers a next state only by running the instruction at pc. -/
theorem step_next {s t : State} (h : step s = .next t) :
    s.pc ≠ s.endPc ∧ aligned s.pc = true ∧
      ∃ w i, s.imem.fetchWord s.pc = some w ∧ decodeWord w = some i ∧ exec i s = .next t := by
  unfold step at h
  split at h
  · cases h
  · rename_i he
    split at h
    · cases h
    · rename_i ha
      split at h
      · cases h
      · rename_i w hw
        split at h
        · cases h
        · rename_i i hi
          exact ⟨he, by simpa using ha, w, i, hw, hi, h⟩

/-- No step changes IMEM or END_PC (10_state.md R10; 20_memory.md R33). -/
theorem step_keeps_parameters {s t : State} (h : step s = .next t) : t.imem = s.imem ∧ t.endPc = s.endPc := by
  obtain ⟨-, -, w, i, -, -, hi⟩ := step_next h
  obtain ⟨v, a, b, rfl⟩ := exec_next hi
  simp

end Sys2Proof.Machine
end

