-- ==== Sys2Proof/Laws/Operands.lean ====
section
/-! SUPPORT. The amount operands as arithmetic, with their ranges (spec/30_encoding.md R38, R39, R40). -/

namespace Sys2Proof.Machine

theorem immAmount_of_lt {n : Nat} (h : n < 32) : immAmount n = n := Nat.mod_eq_of_lt h

theorem regAmount_eq_lowFive (s : State) (r : Reg) : s.regAmount r = lowFive (s.readReg r) := by
  simp [State.regAmount, lowFive]

theorem signedAmount_eq_lowSixSigned (s : State) (r : Reg) : s.signedAmount r = lowSixSigned (s.readReg r) := by
  have := Nat.mod_lt (s.readReg r).toNat (show 0 < 64 by omega)
  simp only [State.signedAmount, lowSixSigned, BitVec.toInt_eq_toNat_cond, BitVec.extractLsb'_toNat,
    Nat.shiftRight_zero]
  split <;> split <;> omega

theorem lowFive_lt (v : Word) : lowFive v < 32 := Nat.mod_lt _ (by omega)

theorem lowSixSigned_bounds (v : Word) : -32 ≤ lowSixSigned v ∧ lowSixSigned v ≤ 31 := by
  have := Nat.mod_lt v.toNat (show 0 < 64 by omega)
  unfold lowSixSigned
  split <;> omega

end Sys2Proof.Machine
end

