-- ==== Sys2Proof/Laws/PerInstr.lean ====
section
/-! SUPPORT. Facts about every instruction as syntax, one lemma per constructor (LAWS.json). -/

namespace Sys2Proof.Laws

/-- An instruction that has a word has it in the R-type layout of the group: opcode 1110111, so bits 1:0 are 11
(30_encoding.md R35), funct3 010, its registers in bits 11:7 and 19:15 and its funct7 in bits 31:25 (R36, R41). -/
def RType.Statement (i : Instr) : Prop :=
  ∀ w, encode i = some w →
    w.extractLsb' 0 7 = 0b1110111#7 ∧ w.extractLsb' 12 3 = 0b010#3 ∧ rdField w = i.rd ∧ rs1Field w = i.rs1 ∧
      w.extractLsb' 25 7 = i.mnemonic.funct7

/-- The layout of the encoder, for any instruction: each constructor's lemma is this one at that constructor. -/
theorem rType_of_encode (i : Instr) : RType.Statement i := by
  intro w h
  unfold encode at h
  split at h
  · cases h
    exact ⟨layout_bits_0_6 .., layout_bits_12_14 .., rdField_layout .., rs1Field_layout .., layout_bits_25_31 ..⟩
  · cases h

theorem RType.kslli32 (rd rs1 : Reg) (n : Nat) : RType.Statement (.kslli32 rd rs1 n) := rType_of_encode _
theorem RType.slli32 (rd rs1 : Reg) (n : Nat) : RType.Statement (.slli32 rd rs1 n) := rType_of_encode _
theorem RType.srai32 (rd rs1 : Reg) (n : Nat) : RType.Statement (.srai32 rd rs1 n) := rType_of_encode _
theorem RType.srai32u (rd rs1 : Reg) (n : Nat) : RType.Statement (.srai32u rd rs1 n) := rType_of_encode _
theorem RType.srli32 (rd rs1 : Reg) (n : Nat) : RType.Statement (.srli32 rd rs1 n) := rType_of_encode _
theorem RType.srli32u (rd rs1 : Reg) (n : Nat) : RType.Statement (.srli32u rd rs1 n) := rType_of_encode _
theorem RType.ksll32 (rd rs1 rs2 : Reg) : RType.Statement (.ksll32 rd rs1 rs2) := rType_of_encode _
theorem RType.kslra32 (rd rs1 rs2 : Reg) : RType.Statement (.kslra32 rd rs1 rs2) := rType_of_encode _
theorem RType.kslra32u (rd rs1 rs2 : Reg) : RType.Statement (.kslra32u rd rs1 rs2) := rType_of_encode _
theorem RType.sll32 (rd rs1 rs2 : Reg) : RType.Statement (.sll32 rd rs1 rs2) := rType_of_encode _
theorem RType.sra32 (rd rs1 rs2 : Reg) : RType.Statement (.sra32 rd rs1 rs2) := rType_of_encode _
theorem RType.sra32u (rd rs1 rs2 : Reg) : RType.Statement (.sra32u rd rs1 rs2) := rType_of_encode _
theorem RType.srl32 (rd rs1 rs2 : Reg) : RType.Statement (.srl32 rd rs1 rs2) := rType_of_encode _
theorem RType.srl32u (rd rs1 rs2 : Reg) : RType.Statement (.srl32u rd rs1 rs2) := rType_of_encode _

end Sys2Proof.Laws
end

