-- ==== Sys2Proof/Laws/Run.lean ====
section
/-! SUPPORT. Runs, one step at a time. -/

namespace Sys2Proof.Machine

@[simp] theorem run_zero (s : State) : run 0 s = .next s := rfl

/-- The host's run, one step unfolded, for any machine. -/
theorem hostRun_succ_of_next (M : Host.Core) {s t : M.State} (h : M.step s = .next t) (n : Nat) :
    M.run (n + 1) s = M.run n t := by
  simp only [Host.Core.run, h]

/-- A run of n + 1 steps that reaches a next state begins with a step that does, for any machine. -/
theorem hostRun_succ_next (M : Host.Core) {n : Nat} {s t : M.State} (h : M.run (n + 1) s = .next t) :
    ∃ u, M.step s = .next u ∧ M.run n u = .next t := by
  cases hs : M.step s <;> simp only [Host.Core.run, hs, reduceCtorEq] at h
  exact ⟨_, rfl, h⟩

/-- A run of n + 1 steps whose first answers a next state. -/
theorem run_succ_of_next {s t : State} (h : step s = .next t) (n : Nat) : run (n + 1) s = run n t :=
  hostRun_succ_of_next Sys2Proof.core h n

/-- A run of n + 1 steps that reaches a next state begins with a step that does. -/
theorem run_succ_next {n : Nat} {s t : State} (h : run (n + 1) s = .next t) :
    ∃ u, step s = .next u ∧ run n u = .next t :=
  hostRun_succ_next Sys2Proof.core h

/-- The instruction a step runs is the one `State.nextInstr` names. -/
theorem nextInstr_of_step {s t : State} (h : step s = .next t) :
    ∃ i, s.nextInstr = some i ∧ exec i s = .next t := by
  obtain ⟨-, -, w, i, hw, hi, he⟩ := step_next h
  exact ⟨i, by simp [State.nextInstr, hw, hi], he⟩

end Sys2Proof.Machine
end

