-- ==== Sys2Proof/Tests/Slice0.lean ====
section
/-! SUPPORT. The model's own tests. Every expected value is the spec's: the words and vectors of
spec/95_test_vectors.md, the encodings of spec/30_encoding.md R36 and R41. The theorems named witness_ show, for each
obligation that has hypotheses, concrete values that meet them together. -/

namespace Sys2Proof.Tests

open Sys2Proof.Machine

/-- A state at pc 0x1000 with the given registers and OV. -/
def stateWith (regs : List (Reg × Word)) (ov : Bool) : State :=
  regs.foldl (fun s p => s.writeReg p.1 p.2) { State.reset with pc := 0x1000#64, ov := ov }

/-- One step of a state on a word placed at its pc: the register asked for, OV and pc after it. -/
def after (w : Nat) (s : State) (r : Reg) : Option (Word × Bool × Addr) :=
  match step (s.withFetchWord 32 w) with
  | .next t => some (t.readReg r, t.ov, t.pc)
  | .fault _ => none
  | .refused _ => none

/-- How a step stops, if it does. -/
def stopOf (s : State) : Option (Fault ⊕ Refusal) :=
  match step s with
  | .next _ => none
  | .fault f => some (.inl f)
  | .refused r => some (.inr r)

/-! Well-formedness: an immediate of 32 is refused, 31 is not (R38, R47). -/

theorem test_kslli32_immediate_32_is_ill_formed :
    (Instr.kslli32 1 2 32).wf = false ∧ (Instr.kslli32 1 2 31).wf = true ∧ encode (.kslli32 1 2 32) = none := by decide

theorem test_slli32_immediate_32_is_ill_formed :
    (Instr.slli32 1 2 32).wf = false ∧ (Instr.slli32 1 2 31).wf = true ∧ encode (.slli32 1 2 32) = none := by decide

theorem test_srai32_immediate_32_is_ill_formed :
    (Instr.srai32 1 2 32).wf = false ∧ (Instr.srai32 1 2 31).wf = true ∧ encode (.srai32 1 2 32) = none := by decide

theorem test_srai32u_immediate_32_is_ill_formed :
    (Instr.srai32u 1 2 32).wf = false ∧ (Instr.srai32u 1 2 31).wf = true ∧ encode (.srai32u 1 2 32) = none := by decide

theorem test_srli32_immediate_32_is_ill_formed :
    (Instr.srli32 1 2 32).wf = false ∧ (Instr.srli32 1 2 31).wf = true ∧ encode (.srli32 1 2 32) = none := by decide

theorem test_srli32u_immediate_32_is_ill_formed :
    (Instr.srli32u 1 2 32).wf = false ∧ (Instr.srli32u 1 2 31).wf = true ∧ encode (.srli32u 1 2 32) = none := by decide

/-! Decoding: a word written out field by field (R36, R41), and words at the field extremes (section 4.1). -/

theorem test_decode_kslli32 :
    decodeWord (0b1000010#7 ++ 0b00111#5 ++ 0b00110#5 ++ 0b010#3 ++ 0b00101#5 ++ 0b1110111#7) =
      some (.kslli32 5 6 7) ∧
    decodeTableWord 32 0x84002077 = some (.kslli32 0 0 0) ∧
    decodeWord 0x85FFAFF7#32 = some (.kslli32 31 31 31) := by decide

theorem test_decode_slli32 :
    decodeWord (0b0111010#7 ++ 0b00111#5 ++ 0b00110#5 ++ 0b010#3 ++ 0b00101#5 ++ 0b1110111#7) =
      some (.slli32 5 6 7) ∧
    decodeTableWord 32 0x74002077 = some (.slli32 0 0 0) ∧
    decodeWord 0x75FFAFF7#32 = some (.slli32 31 31 31) := by decide

theorem test_decode_srai32 :
    decodeWord (0b0111000#7 ++ 0b00111#5 ++ 0b00110#5 ++ 0b010#3 ++ 0b00101#5 ++ 0b1110111#7) =
      some (.srai32 5 6 7) ∧
    decodeTableWord 32 0x70002077 = some (.srai32 0 0 0) ∧
    decodeWord 0x71FFAFF7#32 = some (.srai32 31 31 31) := by decide

theorem test_decode_srai32u :
    decodeWord (0b1000000#7 ++ 0b00111#5 ++ 0b00110#5 ++ 0b010#3 ++ 0b00101#5 ++ 0b1110111#7) =
      some (.srai32u 5 6 7) ∧
    decodeTableWord 32 0x80002077 = some (.srai32u 0 0 0) ∧
    decodeWord 0x81FFAFF7#32 = some (.srai32u 31 31 31) := by decide

theorem test_decode_srli32 :
    decodeWord (0b0111001#7 ++ 0b00111#5 ++ 0b00110#5 ++ 0b010#3 ++ 0b00101#5 ++ 0b1110111#7) =
      some (.srli32 5 6 7) ∧
    decodeTableWord 32 0x72002077 = some (.srli32 0 0 0) ∧
    decodeWord 0x73FFAFF7#32 = some (.srli32 31 31 31) := by decide

theorem test_decode_srli32u :
    decodeWord (0b1000001#7 ++ 0b00111#5 ++ 0b00110#5 ++ 0b010#3 ++ 0b00101#5 ++ 0b1110111#7) =
      some (.srli32u 5 6 7) ∧
    decodeTableWord 32 0x82002077 = some (.srli32u 0 0 0) ∧
    decodeWord 0x83FFAFF7#32 = some (.srli32u 31 31 31) := by decide

theorem test_decode_ksll32 :
    decodeWord (0b0110010#7 ++ 0b00111#5 ++ 0b00110#5 ++ 0b010#3 ++ 0b00101#5 ++ 0b1110111#7) =
      some (.ksll32 5 6 7) ∧
    decodeTableWord 32 0x64002077 = some (.ksll32 0 0 0) ∧
    decodeWord 0x65FFAFF7#32 = some (.ksll32 31 31 31) := by decide

theorem test_decode_kslra32 :
    decodeWord (0b0101011#7 ++ 0b00111#5 ++ 0b00110#5 ++ 0b010#3 ++ 0b00101#5 ++ 0b1110111#7) =
      some (.kslra32 5 6 7) ∧
    decodeTableWord 32 0x56002077 = some (.kslra32 0 0 0) ∧
    decodeWord 0x57FFAFF7#32 = some (.kslra32 31 31 31) := by decide

theorem test_decode_kslra32u :
    decodeWord (0b0110011#7 ++ 0b00111#5 ++ 0b00110#5 ++ 0b010#3 ++ 0b00101#5 ++ 0b1110111#7) =
      some (.kslra32u 5 6 7) ∧
    decodeTableWord 32 0x66002077 = some (.kslra32u 0 0 0) ∧
    decodeWord 0x67FFAFF7#32 = some (.kslra32u 31 31 31) := by decide

theorem test_decode_sll32 :
    decodeWord (0b0101010#7 ++ 0b00111#5 ++ 0b00110#5 ++ 0b010#3 ++ 0b00101#5 ++ 0b1110111#7) =
      some (.sll32 5 6 7) ∧
    decodeTableWord 32 0x54002077 = some (.sll32 0 0 0) ∧
    decodeWord 0x55FFAFF7#32 = some (.sll32 31 31 31) := by decide

theorem test_decode_sra32 :
    decodeWord (0b0101000#7 ++ 0b00111#5 ++ 0b00110#5 ++ 0b010#3 ++ 0b00101#5 ++ 0b1110111#7) =
      some (.sra32 5 6 7) ∧
    decodeTableWord 32 0x50002077 = some (.sra32 0 0 0) ∧
    decodeWord 0x51FFAFF7#32 = some (.sra32 31 31 31) := by decide

theorem test_decode_sra32u :
    decodeWord (0b0110000#7 ++ 0b00111#5 ++ 0b00110#5 ++ 0b010#3 ++ 0b00101#5 ++ 0b1110111#7) =
      some (.sra32u 5 6 7) ∧
    decodeTableWord 32 0x60002077 = some (.sra32u 0 0 0) ∧
    decodeWord 0x61FFAFF7#32 = some (.sra32u 31 31 31) := by decide

theorem test_decode_srl32 :
    decodeWord (0b0101001#7 ++ 0b00111#5 ++ 0b00110#5 ++ 0b010#3 ++ 0b00101#5 ++ 0b1110111#7) =
      some (.srl32 5 6 7) ∧
    decodeTableWord 32 0x52002077 = some (.srl32 0 0 0) ∧
    decodeWord 0x53FFAFF7#32 = some (.srl32 31 31 31) := by decide

theorem test_decode_srl32u :
    decodeWord (0b0110001#7 ++ 0b00111#5 ++ 0b00110#5 ++ 0b010#3 ++ 0b00101#5 ++ 0b1110111#7) =
      some (.srl32u 5 6 7) ∧
    decodeTableWord 32 0x62002077 = some (.srl32u 0 0 0) ∧
    decodeWord 0x63FFAFF7#32 = some (.srl32u 31 31 31) := by decide

/-- Section 4.2: every operand field on its own bits. -/
theorem test_decode_fields :
    decodeWord 0x841525F7#32 = some (.kslli32 11 10 1) ∧ decodeWord 0x5662A477#32 = some (.kslra32 8 5 6) ∧
    decodeWord 0x7030A077#32 = some (.srai32 0 1 3) := by decide

/-- Section 4.3: words no row matches. -/
theorem test_decode_refuses :
    [0x00000000#32, 0xFFFFFFFF#32, 0x00000013#32, 0x50002073#32, 0x50000077#32, 0x50001077#32, 0x50003077#32,
      0x50006077#32, 0x00002077#32, 0x58002077#32, 0x4E002077#32, 0x68002077#32, 0x76002077#32, 0x86002077#32,
      0xD0002077#32, 0x847322F6#32].all (fun w => (decodeWord w).isNone) = true := by decide

/-- Section 4.1's bytes in memory order. -/
theorem test_decode_bytes :
    decode [0xF7#8, 0x22#8, 0x73#8, 0x84#8, 0xAA#8] = .ok (.kslli32 5 6 7, [0xAA#8]) := by decide

theorem test_encode_bytes :
    encodeBytes (.kslli32 5 6 7) = some [0xF7#8, 0x22#8, 0x73#8, 0x84#8] := by decide

theorem test_decode_truncated : decode [0xF7#8, 0x22#8, 0x73#8] = .error (.truncated 3) := by decide

theorem test_decode_not_admitted :
    decode [0x13#8, 0x00#8, 0x00#8, 0x00#8] = .error (.notAdmitted 0x00000013#32) := by decide

/-- R46, R47: an assembler line, and two that stand for nothing. -/
theorem test_assemble :
    assemble .kslra32u [.reg 5, .reg 6, .reg 7] = some (.kslra32u 5 6 7) ∧
    assemble .slli32 [.reg 1, .reg 2, .reg 3] = none ∧ assemble .slli32 [.reg 1, .reg 2, .imm (-1)] = none := by decide

theorem test_asmText : asmText (.srai32u 12 11 1) = "srai32.u x12, x11, 1" := by decide

/-! One step per vector of section 3. -/

theorem test_step_kslli32_a :
    after 0x841322F7 (stateWith [(6, 0x3FFFFFFF40000000#64)] false) 5 =
      some (0x7FFFFFFE7FFFFFFF#64, true, 0x1004#64) := by decide

theorem test_step_kslli32_b :
    after 0x85F322F7 (stateWith [(6, 0xFFFFFFFFFFFFFFFF#64)] false) 5 =
      some (0x8000000080000000#64, false, 0x1004#64) := by decide

theorem test_step_slli32_a :
    after 0x75F322F7 (stateWith [(6, 0x0000000180000001#64)] false) 5 =
      some (0x8000000080000000#64, false, 0x1004#64) := by decide

theorem test_step_slli32_b :
    after 0x750322F7 (stateWith [(6, 0xFFFFFFFF12345678#64)] true) 5 =
      some (0xFFFF000056780000#64, true, 0x1004#64) := by decide

theorem test_step_srai32_a :
    after 0x71F322F7 (stateWith [(6, 0x800000007FFFFFFF#64)] false) 5 =
      some (0xFFFFFFFF00000000#64, false, 0x1004#64) := by decide

theorem test_step_srai32_b :
    after 0x704322F7 (stateWith [(6, 0x87654321FEDCBA98#64)] true) 5 =
      some (0xF8765432FFEDCBA9#64, true, 0x1004#64) := by decide

theorem test_step_srai32u_a :
    after 0x81F322F7 (stateWith [(6, 0xC000000040000000#64)] false) 5 =
      some (0x0000000000000001#64, false, 0x1004#64) := by decide

theorem test_step_srai32u_b :
    after 0x802322F7 (stateWith [(6, 0xFFFFFFFBFFFFFFF9#64)] false) 5 =
      some (0xFFFFFFFFFFFFFFFE#64, false, 0x1004#64) := by decide

theorem test_step_srli32_a :
    after 0x73F322F7 (stateWith [(6, 0x800000007FFFFFFF#64)] false) 5 =
      some (0x0000000100000000#64, false, 0x1004#64) := by decide

theorem test_step_srli32_b :
    after 0x721322F7 (stateWith [(6, 0xFFFFFFFF00000003#64)] true) 5 =
      some (0x7FFFFFFF00000001#64, true, 0x1004#64) := by decide

theorem test_step_srli32u_a :
    after 0x83F322F7 (stateWith [(6, 0xFFFFFFFF40000000#64)] false) 5 =
      some (0x0000000200000001#64, false, 0x1004#64) := by decide

theorem test_step_srli32u_b :
    after 0x821322F7 (stateWith [(6, 0xFFFFFFFF00000003#64)] false) 5 =
      some (0x8000000000000002#64, false, 0x1004#64) := by decide

theorem test_step_ksll32_a :
    after 0x647322F7 (stateWith [(6, 0x12345678FFFFFFFF#64), (7, 0xFFFFFFFFFFFFFF04#64)] false) 5 =
      some (0x7FFFFFFFFFFFFFF0#64, true, 0x1004#64) := by decide

theorem test_step_ksll32_b :
    after 0x647322F7 (stateWith [(6, 0x3FFFFFFF40000000#64), (7, 0x0000000000000020#64)] false) 5 =
      some (0x3FFFFFFF40000000#64, false, 0x1004#64) := by decide

theorem test_step_kslra32_a :
    after 0x567322F7 (stateWith [(6, 0x800000007FFFFFFF#64), (7, 0x0000000000000020#64)] false) 5 =
      some (0xFFFFFFFF00000000#64, false, 0x1004#64) := by decide

theorem test_step_kslra32_b :
    after 0x567322F7 (stateWith [(6, 0x0000000500000007#64), (7, 0x000000000000005F#64)] false) 5 =
      some (0x7FFFFFFF7FFFFFFF#64, true, 0x1004#64) := by decide

theorem test_step_kslra32u_a :
    after 0x667322F7 (stateWith [(6, 0x7FFFFFFF80000000#64), (7, 0x0000000000000020#64)] true) 5 =
      some (0x00000001FFFFFFFF#64, true, 0x1004#64) := by decide

theorem test_step_kslra32u_b :
    after 0x667322F7 (stateWith [(6, 0x87654321FEDCBA98#64), (7, 0x0000000000000004#64)] false) 5 =
      some (0x80000000EDCBA980#64, true, 0x1004#64) := by decide

theorem test_step_sll32_a :
    after 0x547322F7 (stateWith [(6, 0x123456789ABCDEF0#64), (7, 0xFFFFFFFFFFFFFFE8#64)] false) 5 =
      some (0x34567800BCDEF000#64, false, 0x1004#64) := by decide

theorem test_step_sll32_b :
    after 0x547322F7 (stateWith [(6, 0x0000000180000001#64), (7, 0x0000000000000020#64)] false) 5 =
      some (0x0000000180000001#64, false, 0x1004#64) := by decide

theorem test_step_sra32_a :
    after 0x507322F7 (stateWith [(6, 0x800000007FFFFFFF#64), (7, 0x000000000000003F#64)] false) 5 =
      some (0xFFFFFFFF00000000#64, false, 0x1004#64) := by decide

theorem test_step_sra32_b :
    after 0x507322F7 (stateWith [(6, 0xFFFFFF0000000100#64), (7, 0x0000000000000009#64)] true) 5 =
      some (0xFFFFFFFF00000000#64, true, 0x1004#64) := by decide

theorem test_step_sra32u_a :
    after 0x607322F7 (stateWith [(6, 0xC000000040000000#64), (7, 0x00000000000000FF#64)] true) 5 =
      some (0x0000000000000001#64, true, 0x1004#64) := by decide

theorem test_step_sra32u_b :
    after 0x607322F7 (stateWith [(6, 0xFFFFFFFD00000003#64), (7, 0x0000000000000041#64)] false) 5 =
      some (0xFFFFFFFF00000002#64, false, 0x1004#64) := by decide

theorem test_step_srl32_a :
    after 0x527322F7 (stateWith [(6, 0x87654321FEDCBA98#64), (7, 0x0000000000000024#64)] false) 5 =
      some (0x087654320FEDCBA9#64, false, 0x1004#64) := by decide

theorem test_step_srl32_b :
    after 0x527322F7 (stateWith [(6, 0xFFFFFFFF00000003#64), (7, 0x0000000000000101#64)] true) 5 =
      some (0x7FFFFFFF00000001#64, true, 0x1004#64) := by decide

theorem test_step_srl32u_a :
    after 0x627322F7 (stateWith [(6, 0xFFFFFFFF40000000#64), (7, 0x000000000000003F#64)] true) 5 =
      some (0x0000000200000001#64, true, 0x1004#64) := by decide

theorem test_step_srl32u_b :
    after 0x627322F7 (stateWith [(6, 0xFFFFFE0000000200#64), (7, 0x000000000000000A#64)] false) 5 =
      some (0x0040000000000001#64, false, 0x1004#64) := by decide

/-- Section 3, aliasing: `kslra32 x3, x3, x3` reads its elements and its amount before it writes. -/
theorem test_step_reads_before_it_writes :
    after 0x5631A1F7 (stateWith [(3, 0xFFFFFFF0FFFFFFFC#64)] false) 3 =
      some (0xFFFFFFFFFFFFFFFF#64, false, 0x1004#64) := by decide

/-- Section 3, `kslli32 x0, x6, 7`: x0 stays zero and OV is set. -/
theorem test_step_discards_a_write_to_x0 :
    after 0x84732077 (stateWith [(6, 0x00FFFFFF01000000#64)] false) 0 = some (0#64, true, 0x1004#64) := by decide

/-! Section 5, P6: a run refused, a run stuck, a run that ends. Each starts where P6's first step leaves pc. -/

theorem test_step_refuses :
    stopOf ((stateWith [] true).withFetchWord 32 0x00000013) = some (.inr (.notAdmitted 0x1000#64 0x00000013#32)) := by
  decide

theorem test_step_is_stuck : stopOf (stateWith [] true) = some (.inl (.stuck 0x1000#64)) := by decide

theorem test_step_at_end_pc :
    stopOf { (stateWith [] true).withFetchWord 32 0x00000013 with endPc := 0x1000#64 } = some (.inl .endOfRun) := by
  decide

/-- R82, R83: the intrinsic of KSLRA32.u with b = -4. -/
theorem test_intrinsic_kslra32u :
    intrinsicCall .kslra32u 0x87654321FEDCBA98#64 0xFFFFFFFC#32 false = some (0xF8765432FFEDCBAA#64, false) := by decide

/-! Witnesses of the obligations' hypotheses, at the ends of each range. -/

theorem witness_DecodeOfEncodeIsTheInstruction :
    (Instr.kslli32 31 31 31).WellFormed ∧ (Instr.srl32u 0 0 31).WellFormed := by decide

theorem witness_EncodeOfDecodeIsTheWord :
    decodeWord 0x85FFAFF7#32 = some (.kslli32 31 31 31) ∧ decodeWord 0x50002077#32 = some (.sra32 0 0 0) := by decide

theorem witness_OutOfRangeImmediateHasNoEncoding :
    ¬ (Instr.slli32 1 2 32).WellFormed ∧ ((-1 : Int) < 0 ∨ (31 : Int) < -1) ∧ ((32 : Int) < 0 ∨ (31 : Int) < 32) := by
  decide

theorem witness_AssemblerLineRoundTrip :
    (Instr.srai32 31 0 31).WellFormed ∧ assemble .srai32 [.reg 31, .reg 0, .imm 31] = some (.srai32 31 0 31) := by
  decide

theorem witness_SllLaneIgnoresSign : (0 : Nat) < 32 ∧ (31 : Nat) < 32 := by decide

theorem witness_SraLaneIsFloorDivision : (0 : Nat) < 32 ∧ (31 : Nat) < 32 := by decide

theorem witness_SrlLaneIsFloorDivision : (0 : Nat) < 32 ∧ (31 : Nat) < 32 := by decide

/-- sa = 0 for the first clause, sa = 1 and sa = 31 for the second. -/
theorem witness_SrauLaneRoundsToNearest : (0 : Nat) < 32 ∧ ((1 : Nat) < 32 ∧ 1 ≤ 1) ∧ ((31 : Nat) < 32 ∧ 1 ≤ 31) := by
  decide

/-- sa = 0 for the first clause, sa = 1 and sa = 31 for the second. -/
theorem witness_SrluLaneRoundsToNearest : (0 : Nat) < 32 ∧ ((1 : Nat) < 32 ∧ 1 ≤ 1) ∧ ((31 : Nat) < 32 ∧ 1 ≤ 31) := by
  decide

/-- Section 2.6's boundary pair at sa = 1: one element that does not saturate and one that does. -/
theorem witness_KsllLaneSaturatesWhenTopBitsDiffer :
    (1 : Nat) < 32 ∧ (ksllLane 0x3FFFFFFF#32 1).2 = false ∧ (ksllLane 0x40000000#32 1).2 = true := by decide

theorem witness_KslraLaneChoosesByTheSign :
    ((1 : Nat) ≤ 1 ∧ (1 : Nat) ≤ 32) ∧ ((1 : Nat) ≤ 32 ∧ (32 : Nat) ≤ 32) ∧ (31 : Nat) ≤ 31 := by decide

theorem witness_Kslli32SaturatesAndShifts :
    (0 : Nat) < 32 ∧ (31 : Nat) < 32 ∧
    (stateWith [(6, 0x00FFFFFF01000000#64)] false).readReg 6 = 0x00FFFFFF01000000#64 ∧
    (stateWith [(6, 0x00FFFFFF01000000#64)] false).ov = false := by decide

theorem witness_Slli32ShiftsLeft :
    (0 : Nat) < 32 ∧ (31 : Nat) < 32 ∧
    (stateWith [(2, 0x0000000300000002#64)] true).readReg 2 = 0x0000000300000002#64 := by decide

theorem witness_Srai32ShiftsRightArithmetically :
    (0 : Nat) < 32 ∧ (31 : Nat) < 32 ∧
    (stateWith [(11, 0x8000000180000001#64)] true).readReg 11 = 0x8000000180000001#64 ∧
    (stateWith [(11, 0xFFFF400000004000#64)] true).readReg 11 = 0xFFFF400000004000#64 := by decide

theorem witness_Srai32uRoundsToNearest :
    (0 : Nat) < 32 ∧ (31 : Nat) < 32 ∧
    (stateWith [(11, 0xFFFF400000004000#64)] true).readReg 11 = 0xFFFF400000004000#64 := by decide

theorem witness_Srli32ShiftsRightLogically :
    (0 : Nat) < 32 ∧ (31 : Nat) < 32 ∧
    (stateWith [(31, 0xFFFFFFFF00000003#64)] true).readReg 31 = 0xFFFFFFFF00000003#64 := by decide

theorem witness_Srli32uRoundsToNearest :
    (0 : Nat) < 32 ∧ (31 : Nat) < 32 ∧
    (stateWith [(31, 0xFFFFFFFF00000003#64)] true).readReg 31 = 0xFFFFFFFF00000003#64 ∧
    ((1 : Reg) ≠ 0 ∧ (stateWith [(2, 0x0000008000000180#64)] true).readReg 2 = 0x0000008000000180#64) ∧
    ((31 : Reg) ≠ 0 ∧ (stateWith [(2, 0x0000007F0000017F#64)] true).readReg 2 = 0x0000007F0000017F#64) := by decide

/-- The two source registers of a worked example, in one state with OV clear. -/
abbrev Holds (v6 v7 : Word) : Prop :=
  (stateWith [(6, v6), (7, v7)] false).readReg 6 = v6 ∧ (stateWith [(6, v6), (7, v7)] false).readReg 7 = v7 ∧
    (stateWith [(6, v6), (7, v7)] false).ov = false

theorem witness_Ksll32SaturatesAndShifts : Holds 0x0400000003FFFFFF#64 0x0000000000000105#64 := by decide

theorem witness_Kslra32ShiftsEitherWay :
    Holds 0x87654321FEDCBA98#64 0xFFFFFFFFFFFFFFFC#64 ∧ Holds 0x87654321FEDCBA98#64 0x0000000000000004#64 := by decide

theorem witness_Kslra32uShiftsEitherWayRounding :
    Holds 0x87654321FEDCBA98#64 0xFFFFFFFFFFFFFFFC#64 ∧ Holds 0x800000007FFFFFFF#64 0x0000000000000020#64 := by decide

theorem witness_Sll32ShiftsLeft : Holds 0x0400000003FFFFFF#64 0x0000000000000105#64 := by decide

theorem witness_Sra32ShiftsRightArithmetically : Holds 0xFFFFFE0000000200#64 0x0000000000000029#64 := by decide

theorem witness_Sra32uRoundsToNearest : Holds 0xFFFFFF0000000100#64 0x0000000000000009#64 := by decide

theorem witness_Srl32ShiftsRightLogically : Holds 0xFFFFFE0000000200#64 0x0000000000000009#64 := by decide

theorem witness_Srl32uRoundsToNearest : Holds 0xFFFFFE0000000200#64 0x000000000000000A#64 := by decide

/-- A state whose x[7] holds an amount. -/
abbrev amountState (v : Word) : State := stateWith [(5, 0x87654321FEDCBA98#64), (7, v)] false

theorem witness_ImmediateFormsMatchRegisterForms :
    lowFive ((amountState 0x20#64).readReg 7) = 0 ∧ lowFive ((amountState 0x3F#64).readReg 7) = 31 := by decide

/-- The pattern at both ends of each clause. -/
theorem witness_KslraMatchesTheShiftItSelects :
    (((amountState 0x40#64).readReg 7).toNat % 64 = 0 ∧ 0 < 32) ∧
    (((amountState 0x5F#64).readReg 7).toNat % 64 = 31 ∧ 31 < 32) ∧
    (((amountState 0x20#64).readReg 7).toNat % 64 = 32 ∧ 32 = 32) ∧
    (((amountState 0x21#64).readReg 7).toNat % 64 = 33 ∧ 33 ≤ 33) ∧
    (((amountState 0xFFFFFFFFFFFFFFFF#64).readReg 7).toNat % 64 = 63 ∧ 33 ≤ 63) := by decide

/-- Two states that differ in a register the instruction does not read. -/
theorem witness_SourcesDetermineTheResult :
    let s := amountState 4#64
    let s' := s.writeReg 9 1#64
    s ≠ s' ∧ s.readReg (Instr.kslra32 3 5 7).rs1 = s'.readReg (Instr.kslra32 3 5 7).rs1 ∧
    (∀ r, (Instr.kslra32 3 5 7).amount = .reg r → s.readReg r = s'.readReg r) ∧ s.ov = s'.ov ∧ s.pc = s'.pc := by
  refine ⟨by decide, by decide, ?_, by decide, by decide⟩
  intro r h
  cases h
  decide

/-- 0xFFFFFFFFFFFFFFE4 agrees with 4 in bits 4:0 alone, 0xFFFFFFFFFFFFFFC4 in bits 5:0. -/
theorem witness_AmountIgnoresHighBits :
    (7 : Reg) ≠ 5 ∧ (0xFFFFFFFFFFFFFFE4#64).toNat % 32 = ((amountState 4#64).readReg 7).toNat % 32 ∧
    (0xFFFFFFFFFFFFFFC4#64).toNat % 64 = ((amountState 4#64).readReg 7).toNat % 64 := by decide

theorem witness_ZeroAmountCopies :
    ((amountState 0xFFFFFFFFFFFFFFE0#64).readReg 7).toNat % 32 = 0 ∧
    ((amountState 0xFFFFFFFFFFFFFFC0#64).readReg 7).toNat % 64 = 0 := by decide

/-- Two states whose x[5] agree in element 1 alone, and in element 0 alone. -/
theorem witness_ElementsAreIndependent :
    let s := amountState 4#64
    (∀ r, (Instr.ksll32 3 5 7).amount = .reg r → s.readReg r = (s.writeReg 5 0x8765432100000000#64).readReg r ∧
      s.readReg r = (s.writeReg 5 0x00000000FEDCBA98#64).readReg r) ∧
    (s.readReg 5).extractLsb' 32 32 = ((s.writeReg 5 0x8765432100000000#64).readReg 5).extractLsb' 32 32 ∧
    (s.readReg 5).extractLsb' 0 32 = ((s.writeReg 5 0x00000000FEDCBA98#64).readReg 5).extractLsb' 0 32 := by
  refine ⟨?_, by decide, by decide⟩
  intro r h
  cases h
  decide

theorem witness_RegisterZeroIsHardwired : (Instr.kslli32 0 6 7).rd = 0 := by decide

/-- Section 3: `slli32 x0, x6, 7` of the ten, and `kslli32 x0, x6, 7` where element 0 overflows. -/
theorem witness_RdZeroChangesPcAndAtMostOv :
    ((Instr.slli32 0 6 7).rd = 0 ∧ (Instr.slli32 0 6 7).mnemonic ∉ saturatingMnemonics) ∧
    (Instr.kslli32 0 6 7).rd = 0 ∧ saturates (.kslli32 0 6 7) (stateWith [(6, 0x00FFFFFF01000000#64)] false) :=
  ⟨by decide, by decide, Or.inr (show Overflows _ by decide)⟩

theorem witness_ExactlyFourInstructionsWriteOv :
    (stateWith [] true).ov = true ∧
    ∃ t, exec (.slli32 5 6 7) (stateWith [] true) = .next t := ⟨by decide, _, rfl⟩

theorem witness_TenInstructionsNeitherReadNorWriteOv :
    (Instr.srl32u 5 6 7).mnemonic ∈
      [Mnemonic.slli32, .sll32, .srai32, .srai32u, .sra32, .sra32u, .srli32, .srli32u, .srl32, .srl32u] := by decide

/-- P6's launch state: `kslli32 x11, x10, 1` at 0x1000, where element 1 saturates. -/
def launched : State := (stateWith [(10, 0x4000000020000000#64)] false).withFetchWord 32 0x841525F7

/-- The state one step takes `launched` to. -/
def stepped : State := ((launched.writeReg 11 0x7FFFFFFF40000000#64).setOvIf true false).advancePc

theorem launched_steps : step launched = .next stepped := by rfl

/-- A run of no step, and a run of the one step that sets OV. -/
theorem witness_OvAfterRunExactlyWhenSetOrSaturated :
    run 0 launched = .next launched ∧ run 1 launched = .next stepped ∧ launched.ov = false ∧ stepped.ov = true :=
  ⟨rfl, rfl, by decide, by decide⟩

theorem witness_FetchReadsFourBytesLittleEndian :
    (0x1000#64).toNat % 4 = 0 ∧ launched.imem.fetchWord 0x1000#64 = some 0x841525F7#32 ∧
    launched.imem.read 0x1003 = some 0x84#8 ∧ (0xFFFFFFFFFFFFFFFC#64).toNat % 4 = 0 := by decide

theorem witness_LoadedWordIsFetched :
    (0xFFFFFFFFFFFFFFFC#64).toNat % 4 = 0 ∧ ((0#64).toNat % 4 = 0 ∧ 0#64 ≠ 0xFFFFFFFFFFFFFFFC#64) ∧
    launched.imem.wf := by decide

theorem witness_StepRunsTheDecodedInstruction :
    launched.Running ∧ launched.imem.fetchWord launched.pc = some 0x841525F7#32 ∧
    decodeWord 0x841525F7#32 = some (.kslli32 11 10 1) ∧ (Instr.kslli32 11 10 1).WellFormed := by decide

/-- A running state on each side of the equivalence. -/
theorem witness_StepIsStuckOutsideImem :
    launched.Running ∧ launched.imem.fetchWord launched.pc ≠ none ∧ stepped.Running ∧
    stepped.imem.fetchWord stepped.pc = none := by decide

/-- A state whose word at pc no row of R41 matches. -/
def unknownWord : State := (stateWith [] false).withFetchWord 32 0x58002077

theorem witness_StepRefusesEveryOtherWord :
    unknownWord.Running ∧ unknownWord.imem.fetchWord unknownWord.pc = some 0x58002077#32 ∧
    ∀ v ∈ [0x50002077#32, 0x52002077#32, 0x54002077#32, 0x56002077#32, 0x60002077#32, 0x62002077#32, 0x64002077#32,
        0x66002077#32, 0x70002077#32, 0x72002077#32, 0x74002077#32, 0x80002077#32, 0x82002077#32, 0x84002077#32],
      0x58002077#32 &&& 0xFE00707F#32 ≠ v := ⟨by decide, by decide, by simp⟩

/-- A final state, one in mid-run, a misaligned one, a stuck one and a refusing one. -/
theorem witness_RunEndsExactlyAtEndPc :
    ({ stepped with endPc := 0x1004#64 } : State).pc = 0x1004#64 ∧
    (launched.pc ≠ launched.endPc ∧ step launched = .next stepped) ∧
    ({ launched with pc := 0x1001#64 } : State).pc ≠ launched.endPc ∧ step stepped = .fault (.stuck 0x1004#64) ∧
    step unknownWord = .refused (.notAdmitted 0x1000#64 0x58002077#32) :=
  ⟨by decide, ⟨by decide, launched_steps⟩, by decide, rfl, rfl⟩

/-- A pc one above and one below a multiple of 4. -/
theorem witness_MisalignedPcStops :
    let s : State := { launched with pc := 0x1001#64 }
    let s' : State := { launched with pc := 0xFFFFFFFFFFFFFFFF#64 }
    (s.pc ≠ s.endPc ∧ s.pc.toNat % 4 ≠ 0) ∧ s'.pc ≠ s'.endPc ∧ s'.pc.toNat % 4 ≠ 0 := by decide

theorem witness_StepKeepsTheInvariant : launched.Inv ∧ step launched = .next stepped :=
  ⟨by decide, launched_steps⟩

theorem witness_LaunchStatesAreAdmissible :
    (0x1000#64).toNat % 4 = 0 ∧ (0xFFFFFFFFFFFFFFFC#64).toNat % 4 = 0 ∧ launched.imem.wf := by decide

/-- n = 0, and n = 1 with END_PC after the one instruction. -/
theorem witness_StraightLineRunEndsAtEndPc :
    let s : State := { launched with endPc := 0x1000#64 }
    let s' : State := { launched with endPc := 0x1004#64 }
    (s.Admissible ∧ s.pc.toNat + 4 * 0 < 2 ^ 64 ∧ s.endPc = s.pc + BitVec.ofNat 64 (4 * 0)) ∧
    s'.Admissible ∧ s'.pc.toNat + 4 * 1 < 2 ^ 64 ∧ s'.endPc = s'.pc + BitVec.ofNat 64 (4 * 1) ∧
    ∀ k < 1, ∃ w i, s'.imem.fetchWord (s'.pc + BitVec.ofNat 64 (4 * k)) = some w ∧ decodeWord w = some i := by
  refine ⟨by decide, by decide, by decide, by decide, fun k hk => ?_⟩
  obtain rfl : k = 0 := by omega
  exact ⟨0x841525F7#32, .kslli32 11 10 1, by decide, by decide⟩

/-- n = 1: one instruction, then a hole. -/
theorem witness_RunIsStuckAtTheFirstHole :
    launched.pc.toNat % 4 = 0 ∧ (∀ k ≤ 1, launched.pc + BitVec.ofNat 64 (4 * k) ≠ launched.endPc) ∧
    (∀ k < 1, ∃ w i,
      launched.imem.fetchWord (launched.pc + BitVec.ofNat 64 (4 * k)) = some w ∧ decodeWord w = some i) ∧
    launched.imem.fetchWord (launched.pc + BitVec.ofNat 64 (4 * 1)) = none := by
  refine ⟨by decide, by decide, fun k hk => ?_, by decide⟩
  obtain rfl : k = 0 := by omega
  exact ⟨0x841525F7#32, .kslli32 11 10 1, by decide, by decide⟩

theorem witness_RunKeepsImemAndCountsPc : run 1 launched = .next stepped := rfl

/-- A macro with b = 31, a function with b = -4 in x[7], and a macro with b = 32. -/
theorem witness_IntrinsicCallRunsItsInstruction :
    ((5 : Reg) ≠ 0 ∧ intrinsicInstr .slli32 5 6 7 31#32 = some (.slli32 5 6 31) ∧ takesImm .slli32 = true) ∧
    (intrinsicInstr .kslra32 5 6 7 0xFFFFFFFC#32 = some (.kslra32 5 6 7) ∧
      (amountState 0xFFFFFFFFFFFFFFFC#64).readReg 7 = widenB 0xFFFFFFFC#32) ∧
    intrinsicInstr .slli32 5 6 7 32#32 = none := by decide

theorem witness_IntrinsicAmountsActModulo64 :
    Mnemonic.kslra32u ∈ [Mnemonic.kslra32, .kslra32u] ∧ (0xFFFFFFFF#32).toNat % 64 = (0x3F#32).toNat % 64 ∧
    (0#32).toNat % 64 = (64#32).toNat % 64 := by decide

end Sys2Proof.Tests
end

section
/-! The scope statements (spec/00_scope.md R8): every instruction completes, and its result comes from its sources.

The idea is that all 14 have one shape: `satLaneOp` of an element function that the amount operand alone fixes. An
instruction that leaves OV alone is the case in which no element saturates. -/

namespace Sys2Proof.Machine

/-- A register reads its own write back, except x[0] (10_state.md R12). -/
theorem readReg_writeReg_self (s : State) (d : Reg) (v : Word) :
    (s.writeReg d v).readReg d = if d = 0 then 0#64 else v := by
  by_cases hd : d = 0
  · simp [hd, State.readReg]
  · simp [hd, readReg_writeReg]

theorem regAmount_congr {s s' : State} {r : Reg} (h : s.readReg r = s'.readReg r) : s.regAmount r = s'.regAmount r := by
  rw [State.regAmount, State.regAmount, h]

theorem signedAmount_congr {s s' : State} {r : Reg} (h : s.readReg r = s'.readReg r) :
    s.signedAmount r = s'.signedAmount r := by
  rw [State.signedAmount, State.signedAmount, h]

/-- Leaving OV alone is saturating in no element. -/
theorem laneOp_eq_satLaneOp (f : Elem → Elem) (rd rs1 : Reg) (s : State) :
    laneOp f rd rs1 s = satLaneOp (fun w => (f w, false)) rd rs1 s := by
  simp [laneOp, satLaneOp, lanes]

/-- States that agree on the amount operand have the same element function. -/
theorem exec_eq_satLaneOp_of_amount_agrees {i : Instr} {s s' : State}
    (h : ∀ r, i.amount = .reg r → s.readReg r = s'.readReg r) :
    ∃ f, exec i s = satLaneOp f i.rd i.rs1 s ∧ exec i s' = satLaneOp f i.rd i.rs1 s' := by
  cases i <;> simp only [exec_kslli32, exec_slli32, exec_srai32, exec_srai32u, exec_srli32, exec_srli32u, exec_ksll32,
    exec_kslra32, exec_kslra32u, exec_sll32, exec_sra32, exec_sra32u, exec_srl32, exec_srl32u, laneOp_eq_satLaneOp,
    Instr.rd, Instr.rs1]
  case kslli32 | slli32 | srai32 | srai32u | srli32 | srli32u => exact ⟨_, rfl, rfl⟩
  case kslra32 rd rs1 rs2 | kslra32u rd rs1 rs2 =>
    rw [signedAmount_congr (h rs2 rfl)]
    exact ⟨_, rfl, rfl⟩
  case ksll32 rd rs1 rs2 | sll32 rd rs1 rs2 | sra32 rd rs1 rs2 | sra32u rd rs1 rs2 | srl32 rd rs1 rs2 |
      srl32u rd rs1 rs2 =>
    rw [regAmount_congr (h rs2 rfl)]
    exact ⟨_, rfl, rfl⟩

/-- Every instruction in every state is `satLaneOp` of some element function. -/
theorem exec_eq_satLaneOp (i : Instr) (s : State) : ∃ f, exec i s = satLaneOp f i.rd i.rs1 s := by
  obtain ⟨f, hf, -⟩ := exec_eq_satLaneOp_of_amount_agrees (i := i) (s := s) (s' := s) fun _ _ => rfl
  exact ⟨f, hf⟩

theorem satLaneOp_completes (f : Elem → Elem × Bool) (rd rs1 : Reg) (s : State) :
    ∃ t, satLaneOp f rd rs1 s = .next t := ⟨_, rfl⟩

/-- One element function on equal elements writes the same x[rd] and sets OV in the same cases. -/
theorem satLaneOp_agree {f : Elem → Elem × Bool} {rd rs1 : Reg} {s s' t t' : State}
    (hsrc : s.readReg rs1 = s'.readReg rs1) (ht : satLaneOp f rd rs1 s = .next t)
    (ht' : satLaneOp f rd rs1 s' = .next t') :
    t.readReg rd = t'.readReg rd ∧ (s.ov = s'.ov → t.ov = t'.ov) ∧ (s.pc = s'.pc → t.pc = t'.pc) := by
  rw [satLaneOp_next ht, satLaneOp_next ht', hsrc]
  refine ⟨?_, fun hov => ?_, fun hpc => ?_⟩
  · simp [readReg_writeReg_self]
  · simp [hov]
  · simp [hpc]

/-- Settles O34: `exec` has one shape, and that shape completes. -/
theorem everyInstructionAnswersANextState : Obligations.EveryInstructionAnswersANextState := by
  intro i s
  obtain ⟨f, hf⟩ := exec_eq_satLaneOp i s
  rw [hf]
  exact satLaneOp_completes f i.rd i.rs1 s

/-- Settles O30: equal amounts give both states one element function, which equal x[rs1] then make agree. -/
theorem sourcesDetermineTheResult : Obligations.SourcesDetermineTheResult := by
  intro i s s' hsrc hamount
  obtain ⟨f, hf, hf'⟩ := exec_eq_satLaneOp_of_amount_agrees hamount
  obtain ⟨t, ht⟩ := satLaneOp_completes f i.rd i.rs1 s
  obtain ⟨t', ht'⟩ := satLaneOp_completes f i.rd i.rs1 s'
  exact ⟨t, t', hf.trans ht, hf'.trans ht', satLaneOp_agree hsrc ht ht'⟩

end Sys2Proof.Machine
end

section
/-! The state statements (spec/10_state.md R10 to R22): x[0], pc, OV and the parameters, over one instruction, one step
and every run.

The idea is one fact about OV: the element function that an instruction applies reports saturation exactly where
`elementSaturates` says so. OV after an instruction, a step and a run follow from it, each from the one before. -/

namespace Sys2Proof.Machine

/-! The program counter as a number. -/

/-- R16's spelling of the advance. -/
theorem add_four_eq_ofNat (a : Addr) : a + 4#64 = BitVec.ofNat 64 (a.toNat + 4) := by
  apply BitVec.eq_of_toNat_eq
  simp

/-- The advance keeps the alignment, the wrap at the top included (10_state.md R17). -/
theorem add_four_mod_four {a : Addr} (h : a.toNat % 4 = 0) : (a + 4#64).toNat % 4 = 0 := by
  rw [BitVec.toNat_add, BitVec.toNat_ofNat]
  omega

/-! pc and the registers after an instruction. -/

theorem exec_next_pc {i : Instr} {s t : State} (h : exec i s = .next t) : t.pc = s.pc + 4#64 := by
  obtain ⟨v, a, b, rfl⟩ := exec_next h
  simp

theorem exec_next_slot_zero {i : Instr} {s t : State} (h : exec i s = .next t) : t.x[0] = s.x[0] := by
  obtain ⟨v, a, b, rfl⟩ := exec_next h
  simp

/-- With rd = 0 no register changes (10_state.md R12). -/
theorem exec_next_readReg_of_rd_zero {i : Instr} {s t : State} (hrd : i.rd = 0) (h : exec i s = .next t) (r : Reg) :
    t.readReg r = s.readReg r := by
  obtain ⟨v, a, b, rfl⟩ := exec_next h
  simp [hrd]

/-! OV after an instruction. -/

/-- Saturation of R56 is the exact product leaving the range. -/
theorem ksllLane_saturates_iff (w : Elem) (sa : Nat) : (ksllLane w sa).2 = true ↔ Overflows (w.toInt * 2 ^ sa) := by
  obtain ⟨hp, hf⟩ | ⟨hp, hf⟩ | ⟨hle, hge, hf⟩ := ksllLane_cases w sa
  · exact iff_of_true (by rw [hf]) (.inl hp)
  · exact iff_of_true (by rw [hf]) (.inr hp)
  · exact iff_of_false (by simp [hf]) fun h => h.elim hle.not_gt hge.not_gt

/-- A right shift of R57 never saturates; its left shift does as R56's. -/
theorem kslraLane_saturates_iff (w : Elem) (amt : Int) (u : Bool) :
    (kslraLane w amt u).2 = true ↔ 0 ≤ amt ∧ Overflows (w.toInt * 2 ^ amt.toNat) := by
  by_cases h : 0 ≤ amt
  · simp only [kslraLane_nonneg w h, ksllLane_saturates_iff, h, true_and]
  · simp [kslraLane_neg w (Int.not_le.1 h), h]

/-- The element function that an instruction applies reports saturation exactly as `elementSaturates` states it. -/
theorem exec_eq_satLaneOp_saturates (i : Instr) (s : State) :
    ∃ f, exec i s = satLaneOp f i.rd i.rs1 s ∧ ∀ w, (f w).2 = true ↔ elementSaturates i s w := by
  cases i <;> simp only [exec_kslli32, exec_slli32, exec_srai32, exec_srai32u, exec_srli32, exec_srli32u, exec_ksll32,
    exec_kslra32, exec_kslra32u, exec_sll32, exec_sra32, exec_sra32u, exec_srl32, exec_srl32u, laneOp_eq_satLaneOp,
    Instr.rd, Instr.rs1, elementSaturates] <;> refine ⟨_, rfl, fun w => ?_⟩
  case kslli32 => exact ksllLane_saturates_iff w (immAmount _)
  case ksll32 =>
    rw [regAmount_eq_lowFive]
    exact ksllLane_saturates_iff w _
  case kslra32 | kslra32u =>
    rw [signedAmount_eq_lowSixSigned]
    exact kslraLane_saturates_iff w _ _
  case slli32 | srai32 | srai32u | srli32 | srli32u | sll32 | sra32 | sra32u | srl32 | srl32u =>
    exact iff_of_false Bool.false_ne_true id

/-- OV after any instruction (40_simd32_lane_operations.md R58). -/
theorem exec_next_ov_iff {i : Instr} {s t : State} (h : exec i s = .next t) :
    t.ov = true ↔ s.ov = true ∨ saturates i s := by
  obtain ⟨f, hf, hsat⟩ := exec_eq_satLaneOp_saturates i s
  rw [satLaneOp_next (hf.symm.trans h)]
  simp only [advancePc_ov, setOvIf_ov, writeReg_ov, Bool.or_eq_true, hsat, or_assoc, saturates, upper, lower]

/-- Only the four of R18 saturate. -/
theorem not_saturates_of_mnemonic {i : Instr} (h : i.mnemonic ∉ saturatingMnemonics) (s : State) :
    ¬ saturates i s := by
  cases i
  case kslli32 | ksll32 | kslra32 | kslra32u => simp [Instr.mnemonic, saturatingMnemonics] at h
  all_goals simp [saturates, elementSaturates]

theorem exec_next_ov_of_mnemonic {i : Instr} (hm : i.mnemonic ∉ saturatingMnemonics) {s t : State}
    (h : exec i s = .next t) : t.ov = s.ov := by
  rw [Bool.eq_iff_iff, exec_next_ov_iff h]
  simp [not_saturates_of_mnemonic hm s]

/-- The mnemonics of R20 are none of R18's. -/
theorem not_mem_saturatingMnemonics_of_mem :
    ∀ m ∈ [Mnemonic.slli32, .sll32, .srai32, .srai32u, .sra32, .sra32u, .srli32, .srli32u, .srl32, .srl32u],
      m ∉ saturatingMnemonics := by decide

/-- A state whose x[6] serves as both source and amount: its upper element is the largest signed one, and the amount
it holds is 1. -/
def overflowingState : State := State.reset.writeReg 6 0x7FFFFFFF00000001#64

/-- Each of the four has an instruction that saturates with OV clear before it: it doubles the largest element. -/
theorem exists_saturates_of_mem {m : Mnemonic} (hm : m ∈ saturatingMnemonics) :
    ∃ i : Instr, i.mnemonic = m ∧ saturates i overflowingState := by
  have hread : overflowingState.readReg 6 = 0x7FFFFFFF00000001#64 := by decide
  simp only [saturatingMnemonics, List.mem_cons, List.not_mem_nil, or_false] at hm
  obtain rfl | rfl | rfl | rfl := hm
  · exact ⟨.kslli32 5 6 1, rfl, .inl (by simp [elementSaturates, Instr.rs1, hread, Overflows])⟩
  · exact ⟨.ksll32 5 6 6, rfl, .inl (by simp [elementSaturates, Instr.rs1, hread, lowFive, Overflows])⟩
  · exact ⟨.kslra32 5 6 6, rfl, .inl (by simp [elementSaturates, Instr.rs1, hread, lowSixSigned, Overflows])⟩
  · exact ⟨.kslra32u 5 6 6, rfl, .inl (by simp [elementSaturates, Instr.rs1, hread, lowSixSigned, Overflows])⟩

/-! OV before an instruction: no effect but on OV. -/

theorem writeReg_with_ov (s : State) (r : Reg) (v : Word) (b : Bool) :
    State.writeReg { s with ov := b } r v = { s.writeReg r v with ov := b } := by
  by_cases h : r = 0
  · simp [h]
  · simp [writeReg_of_ne h]

theorem setOvIf_eq_with_ov (s : State) (a b : Bool) : s.setOvIf a b = { s with ov := s.ov || a || b } := by
  cases a <;> cases b <;> simp [State.setOvIf]

/-- One element function over states that differ in OV alone: the next states differ in OV alone. -/
theorem satLaneOp_with_ov {f : Elem → Elem × Bool} {rd rs1 : Reg} {s t : State} (h : satLaneOp f rd rs1 s = .next t)
    (b : Bool) : ∃ o, satLaneOp f rd rs1 { s with ov := b } = .next { t with ov := o } := by
  obtain rfl := satLaneOp_next h
  have hread : State.readReg { s with ov := b } rs1 = s.readReg rs1 := readReg_congr rfl rs1
  refine ⟨b || (f (upper (s.readReg rs1))).2 || (f (lower (s.readReg rs1))).2, ?_⟩
  simp only [satLaneOp, hread, writeReg_with_ov, setOvIf_eq_with_ov, State.advancePc]

/-- Another OV before an instruction changes its next state in OV alone (10_state.md R22). -/
theorem exec_with_ov {i : Instr} {s t : State} (h : exec i s = .next t) (b : Bool) :
    ∃ o, exec i { s with ov := b } = .next { t with ov := o } := by
  obtain ⟨f, hf, hf'⟩ := exec_eq_satLaneOp_of_amount_agrees (i := i) (s := s) (s' := { s with ov := b })
    fun r _ => readReg_congr rfl r
  rw [hf']
  exact satLaneOp_with_ov (hf.symm.trans h) b

/-! Steps. -/

theorem step_next_pc {s t : State} (h : step s = .next t) : t.pc = s.pc + 4#64 := by
  obtain ⟨i, -, hi⟩ := nextInstr_of_step h
  exact exec_next_pc hi

/-- OV after a step: set before it, or set by the instruction that the step runs. -/
theorem step_next_ov_iff {s t : State} (h : step s = .next t) :
    t.ov = true ↔ s.ov = true ∨ ∃ i, s.nextInstr = some i ∧ saturates i s := by
  obtain ⟨i, hnext, hi⟩ := nextInstr_of_step h
  simp [exec_next_ov_iff hi, hnext]

/-! Launch. -/

/-- What the registers of a launch state read as: the host's choice, except x[0]. -/
theorem readReg_launch (x : Vector Word 32) (o : Bool) (p e : Addr) (m : Memory) (r : Reg) :
    (State.launch x o p e m).readReg r = if r = 0 then 0#64 else x[r.val] := by
  by_cases hr : r = 0
  · simp [State.readReg, hr]
  · have : 0 ≠ r.val := fun h => hr (Fin.ext h.symm)
    simp [State.readReg, hr, this]

/-! The obligations of the state. -/

/-- Settles O49: a step is an instruction, which leaves the slot of x[0] and IMEM alone and advances pc by 4. -/
theorem stepKeepsTheInvariant : Obligations.StepKeepsTheInvariant := by
  rintro s t ⟨hx, hpc, hmem⟩ h
  obtain ⟨i, -, hi⟩ := nextInstr_of_step h
  obtain ⟨himem, -⟩ := step_keeps_parameters h
  refine ⟨?_, ?_, ?_⟩
  · rw [exec_next_slot_zero hi, hx]
  · rw [step_next_pc h]
    exact add_four_mod_four hpc
  · rw [himem]
    exact hmem

/-- Settles O35: every instruction completes and advances pc as R16 does. -/
theorem pcAdvancesByFour : Obligations.PcAdvancesByFour := by
  intro i s
  obtain ⟨t, ht⟩ := everyInstructionAnswersANextState i s
  exact ⟨t, ht, by rw [exec_next_pc ht, add_four_eq_ofNat]⟩

/-- Settles O36: the write to x[0] is the one effect that is lost. -/
theorem registerZeroIsHardwired : Obligations.RegisterZeroIsHardwired := by
  refine ⟨fun s => rfl, writeReg_zero, fun i s hrd => ?_⟩
  obtain ⟨t, ht, hpc⟩ := pcAdvancesByFour i s
  exact ⟨t, ht, exec_next_readReg_of_rd_zero hrd ht, hpc, exec_next_ov_iff ht⟩

/-- Settles O38: a saturation with OV clear sets it, the ten others never saturate, and OV set stays set. -/
theorem exactlyFourInstructionsWriteOv : Obligations.ExactlyFourInstructionsWriteOv := by
  refine ⟨fun m => ⟨fun hm => ?_, ?_⟩, fun i s t h hs => (exec_next_ov_iff h).2 (.inl hs)⟩
  · obtain ⟨i, him, hsat⟩ := exists_saturates_of_mem hm
    obtain ⟨t, ht⟩ := everyInstructionAnswersANextState i overflowingState
    have hclear : overflowingState.ov = false := rfl
    exact ⟨i, overflowingState, t, him, ht, by simp [(exec_next_ov_iff ht).2 (.inr hsat), hclear]⟩
  · rintro ⟨i, s, t, rfl, h, hne⟩
    by_contra hm
    exact hne (exec_next_ov_of_mnemonic hm h)

/-- Settles O40: the two next states differ in OV alone. -/
theorem noResultDependsOnOv : Obligations.NoResultDependsOnOv := by
  intro i s b
  obtain ⟨t, ht⟩ := everyInstructionAnswersANextState i s
  obtain ⟨o, hu⟩ := exec_with_ov ht b
  exact ⟨t, { t with ov := o }, ht, hu, rfl, rfl⟩

/-- Settles O39: the OV put in is the only difference, and the instruction hands it through. -/
theorem tenInstructionsNeitherReadNorWriteOv : Obligations.TenInstructionsNeitherReadNorWriteOv := by
  intro i s hten
  have hm : i.mnemonic ∉ saturatingMnemonics := not_mem_saturatingMnemonics_of_mem _ hten
  obtain ⟨t, ht⟩ := everyInstructionAnswersANextState i s
  refine ⟨t, ht, exec_next_ov_of_mnemonic hm ht, fun b => ?_⟩
  obtain ⟨o, ho⟩ := exec_with_ov ht b
  have hob : o = b := exec_next_ov_of_mnemonic hm ho
  rw [ho, hob]

/-- Settles O41, by induction on the number of steps: the first step's instruction is the run's at k = 0, and the rest
of the run has the others, one later. -/
theorem ovAfterRunExactlyWhenSetOrSaturated : Obligations.OvAfterRunExactlyWhenSetOrSaturated := by
  intro n
  induction n with
  | zero =>
    rintro s t ⟨⟩
    simp
  | succ n ih =>
    intro s t h
    obtain ⟨u, hstep, hrun⟩ := run_succ_next h
    rw [ih u t hrun, step_next_ov_iff hstep, Nat.exists_lt_succ_left, or_assoc]
    simp [run_succ_of_next hstep]

/-- Settles O54, by induction on the number of steps: one keeps the parameters and adds 4, and so the rest. -/
theorem runKeepsImemAndCountsPc : Obligations.RunKeepsImemAndCountsPc := by
  intro n
  induction n with
  | zero =>
    rintro s t ⟨⟩
    simp
  | succ n ih =>
    intro s t h
    obtain ⟨u, hstep, hrun⟩ := run_succ_next h
    obtain ⟨himem, hend⟩ := step_keeps_parameters hstep
    obtain ⟨himem', hend', -, hpc⟩ := ih u t hrun
    have hmem : t.imem = s.imem := himem'.trans himem
    refine ⟨hmem, hend'.trans hend, fun a => by rw [hmem], ?_⟩
    calc t.pc = s.pc + 4#64 + BitVec.ofNat 64 (4 * n) := by rw [hpc, step_next_pc hstep]
      _ = s.pc + BitVec.ofNat 64 (4 * (n + 1)) := by
        rw [BitVec.add_assoc, Nat.mul_succ, Nat.add_comm, BitVec.ofNat_add]

/-- Settles O50: each premise evaluated at the one state. -/
theorem resetMeetsTheInvariant : Obligations.ResetMeetsTheInvariant := by
  have hx : State.reset.x[0] = 0#64 := by decide
  have hpc : State.reset.pc.toNat % 4 = 0 := by decide
  have hend : State.reset.endPc.toNat % 4 = 0 := by decide
  exact ⟨⟨hx, hpc, reset_imem_wf⟩, hpc, hend, hx⟩

/-- Settles O51: the launch zeroes the slot of x[0] and hands every other premise through. -/
theorem launchStatesAreAdmissible : Obligations.LaunchStatesAreAdmissible := by
  intro x ov pc endPc m hpc hend hm
  have hx : (State.launch x ov pc endPc m).x[0] = 0#64 := by simp
  exact ⟨⟨hpc, hend, hx⟩, ⟨hx, hpc, hm⟩, rfl, readReg_launch x ov pc endPc m⟩

end Sys2Proof.Machine
end

section
/-! The instruction memory (spec/20_memory.md R25, R27, R29, R34): the bytes of a fetched word, the host's load against
the fetch, and where a step stops before any instruction runs.

The idea is that a fetch reads four bytes and nothing else: what a load leaves of a fetch is what it leaves of those
four, and the bytes of two aligned words never meet. -/

namespace Sys2Proof.Machine

/-! A word and its bytes. -/

theorem getLsbD_wordOfBytes (b0 b1 b2 b3 : Byte) (k : Nat) :
    (wordOfBytes b0 b1 b2 b3).getLsbD k =
      if k < 8 then b0.getLsbD k
      else if k < 16 then b1.getLsbD (k - 8)
      else if k < 24 then b2.getLsbD (k - 16)
      else b3.getLsbD (k - 24) := by
  have hword : (wordOfBytes b0 b1 b2 b3).getLsbD k = (b3 ++ b2 ++ b1 ++ b0).getLsbD k := rfl
  have h16 : k - 8 < 8 ↔ k < 16 := by omega
  have h24 : k - 16 < 8 ↔ k < 24 := by omega
  simp only [hword, BitVec.getLsbD_append, Nat.sub_sub, h16, h24]

theorem wordOfBytes_wordByte (w : InstrWord) :
    wordOfBytes (wordByte w 0) (wordByte w 1) (wordByte w 2) (wordByte w 3) = w := by
  apply BitVec.eq_of_getLsbD_eq
  intro k hk
  simp only [getLsbD_wordOfBytes, wordByte, BitVec.getLsbD_extractLsb']
  split_ifs with h8 h16 h24
  · simp [h8]
  · rw [show 8 * 1 + (k - 8) = k by omega]; simp; omega
  · rw [show 8 * 2 + (k - 16) = k by omega]; simp; omega
  · rw [show 8 * 3 + (k - 24) = k by omega]; simp; omega

theorem wordByte_wordOfBytes (b0 b1 b2 b3 : Byte) :
    wordByte (wordOfBytes b0 b1 b2 b3) 0 = b0 ∧ wordByte (wordOfBytes b0 b1 b2 b3) 1 = b1 ∧
      wordByte (wordOfBytes b0 b1 b2 b3) 2 = b2 ∧ wordByte (wordOfBytes b0 b1 b2 b3) 3 = b3 := by
  refine ⟨?_, ?_, ?_, ?_⟩ <;> refine BitVec.eq_of_getLsbD_eq fun k hk => ?_ <;>
    simp only [wordByte, BitVec.getLsbD_extractLsb', hk, decide_true, Bool.true_and, getLsbD_wordOfBytes]
  · simp [hk]
  · simp [show 8 + k < 16 by omega]
  · simp [show ¬ 16 + k < 8 by omega, show 16 + k < 24 by omega]
  · simp [show ¬ 24 + k < 8 by omega, show ¬ 24 + k < 16 by omega]

/-- A word is made of four bytes exactly when they are its bytes. -/
theorem eq_wordOfBytes_iff {w : InstrWord} {b0 b1 b2 b3 : Byte} :
    w = wordOfBytes b0 b1 b2 b3 ↔ wordByte w 0 = b0 ∧ wordByte w 1 = b1 ∧ wordByte w 2 = b2 ∧ wordByte w 3 = b3 := by
  constructor
  · rintro rfl
    exact wordByte_wordOfBytes b0 b1 b2 b3
  · rintro ⟨rfl, rfl, rfl, rfl⟩
    exact (wordOfBytes_wordByte w).symm

/-! The fetch, byte by byte. -/

theorem forall_lt_four {p : Nat → Prop} : (∀ k < 4, p k) ↔ p 0 ∧ p 1 ∧ p 2 ∧ p 3 := by
  simp only [Nat.forall_lt_succ_right, Nat.not_lt_zero, false_imp_iff, implies_true, true_and, and_assoc]

/-- A fetch gives a word exactly when each of its bytes is listed, in rising order of significance. -/
theorem fetchWord_eq_some_iff_bytes {m : Memory} {a : Addr} {w : InstrWord} :
    m.fetchWord a = some w ↔ ∀ k < 4, m.read (byteAddr a k) = some (wordByte w k) := by
  rw [forall_lt_four, fetchWord_eq_some]
  constructor
  · rintro ⟨b0, b1, b2, b3, h0, h1, h2, h3, hw⟩
    obtain ⟨rfl, rfl, rfl, rfl⟩ := eq_wordOfBytes_iff.1 hw
    exact ⟨h0, h1, h2, h3⟩
  · rintro ⟨h0, h1, h2, h3⟩
    exact ⟨_, _, _, _, h0, h1, h2, h3, (wordOfBytes_wordByte w).symm⟩

/-- The four bytes are all that a fetch depends on. -/
theorem fetchWord_congr {m m' : Memory} {a : Addr} (h : ∀ k < 4, m.read (byteAddr a k) = m'.read (byteAddr a k)) :
    m.fetchWord a = m'.fetchWord a := by
  apply Option.ext
  intro w
  rw [fetchWord_eq_some_iff_bytes, fetchWord_eq_some_iff_bytes]
  exact forall₂_congr fun k hk => by rw [h k hk]

/-! The host's load, byte by byte. -/

/-- The bytes of an aligned word lie at four different addresses, and at no address of another aligned word. -/
theorem byteAddr_eq_iff_of_aligned {a b : Addr} (ha : a.toNat % 4 = 0) (hb : b.toNat % 4 = 0) {k l : Nat}
    (hk : k < 4) (hl : l < 4) : byteAddr a k = byteAddr b l ↔ a = b ∧ k = l := by
  rw [byteAddr_of_aligned ha hk, byteAddr_of_aligned hb hl, BitVec.toNat_eq]
  omega

/-- Read of one byte after a load of one word. -/
theorem read_storeWord (m : Memory) (a : Addr) (w : InstrWord) (x : Nat) :
    (m.storeWord a w).read x =
      if x = byteAddr a 3 then some (wordByte w 3)
      else if x = byteAddr a 2 then some (wordByte w 2)
      else if x = byteAddr a 1 then some (wordByte w 1)
      else if x = byteAddr a 0 then some (wordByte w 0)
      else m.read x := by
  simp only [Memory.storeWord, read_write]

theorem read_storeWord_same (m : Memory) {a : Addr} (w : InstrWord) (ha : a.toNat % 4 = 0) :
    ∀ k < 4, (m.storeWord a w).read (byteAddr a k) = some (wordByte w k) := by
  rw [forall_lt_four]
  simp [read_storeWord, byteAddr_eq_iff_of_aligned ha ha]

theorem read_storeWord_other (m : Memory) {a b : Addr} (w : InstrWord) (ha : a.toNat % 4 = 0) (hb : b.toNat % 4 = 0)
    (hne : b ≠ a) {k : Nat} (hk : k < 4) : (m.storeWord a w).read (byteAddr b k) = m.read (byteAddr b k) := by
  simp [read_storeWord, byteAddr_eq_iff_of_aligned hb ha hk, hne]

/-! The step, outcome by outcome (70_reset_and_hazards.md R114). -/

theorem step_of_not_aligned {s : State} (hend : s.pc ≠ s.endPc) (hpc : s.pc.toNat % 4 ≠ 0) :
    step s = .fault (.misalignedPc s.pc) := by
  have ha : aligned s.pc = false := by rw [← Bool.not_eq_true, aligned_iff]; exact hpc
  simp [step, hend, ha]

theorem step_of_fetchWord_none {s : State} (hs : s.Running) (hw : s.imem.fetchWord s.pc = none) :
    step s = .fault (.stuck s.pc) := by
  obtain ⟨hend, hpc⟩ := hs
  simp [step, hend, (aligned_iff s.pc).2 hpc, hw]

theorem step_of_decodeWord_none {s : State} (hs : s.Running) {w : InstrWord} (hw : s.imem.fetchWord s.pc = some w)
    (hi : decodeWord w = none) : step s = .refused (.notAdmitted s.pc w) := by
  obtain ⟨hend, hpc⟩ := hs
  simp [step, hend, (aligned_iff s.pc).2 hpc, hw, hi]

theorem step_of_decodeWord_some {s : State} (hs : s.Running) {w : InstrWord} (hw : s.imem.fetchWord s.pc = some w)
    {i : Instr} (hi : decodeWord w = some i) : step s = exec i s := by
  obtain ⟨hend, hpc⟩ := hs
  simp [step, hend, (aligned_iff s.pc).2 hpc, hw, hi]

/-- A running state whose word is there is refused or has a next state; it does not fault. -/
theorem step_ne_fault_of_fetchWord_some {s : State} (hs : s.Running) {w : InstrWord}
    (hw : s.imem.fetchWord s.pc = some w) (r : Fault) : step s ≠ .fault r := by
  cases hi : decodeWord w with
  | none => simp [step_of_decodeWord_none hs hw hi]
  | some i =>
    obtain ⟨t, ht⟩ := everyInstructionAnswersANextState i s
    simp [step_of_decodeWord_some hs hw hi, ht]

/-! The obligations of the instruction memory. -/

/-- Settles O42: the four bytes of an aligned word do not wrap, so they lie at a to a + 3. -/
theorem fetchReadsFourBytesLittleEndian : Obligations.FetchReadsFourBytesLittleEndian := by
  intro m a w ha
  rw [fetchWord_eq_some_iff_bytes]
  exact forall₂_congr fun k hk => by rw [byteAddr_of_aligned ha hk, wordByte]

/-- Settles O43: the load lists the word's bytes where the fetch reads them and touches no byte of another word. -/
theorem loadedWordIsFetched : Obligations.LoadedWordIsFetched := by
  intro m a w ha
  refine ⟨?_, fun b hb hne => ?_, fun hm => storeWord_wf hm a w⟩
  · exact fetchWord_eq_some_iff_bytes.2 (read_storeWord_same m w ha)
  · exact fetchWord_congr fun k hk => read_storeWord_other m w ha hb hne hk

/-- Settles O45: with the word there, the step refuses it or runs it, and neither is a fault. -/
theorem stepIsStuckOutsideImem : Obligations.StepIsStuckOutsideImem := by
  intro s hs
  refine ⟨fun hstuck => ?_, step_of_fetchWord_none hs⟩
  cases hw : s.imem.fetchWord s.pc with
  | none => rfl
  | some w => exact absurd hstuck (step_ne_fault_of_fetchWord_some hs hw _)

/-- Settles O48: alignment is checked before the fetch. -/
theorem misalignedPcStops : Obligations.MisalignedPcStops := by
  intro s hend hpc
  exact step_of_not_aligned hend hpc

end Sys2Proof.Machine
end

section
/-! The encoding (spec/30_encoding.md R35 to R44): decoding and encoding are each other's inverse.

The idea is to read the table's mask-and-match test as a statement about fields: a word matches a row exactly when its
opcode and funct3 are the group's and its funct7 is the row's mnemonic's. Such a word is the layout of its own fields,
and that layout is what the encoder writes. -/

namespace Sys2Proof

/-! A word against a row. -/

/-- The mask field by field: ones over funct7, funct3 and the opcode, zeros over the operands. -/
theorem encMask_eq_fields :
    encMask = BitVec.allOnes 7 ++ 0#5 ++ 0#5 ++ BitVec.allOnes 3 ++ 0#5 ++ BitVec.allOnes 7 := by decide

/-- A mask of the same field widths acts on each field apart. -/
theorem and_fields (f op : BitVec 7) (t a d : BitVec 5) (f3 : BitVec 3) :
    (f ++ t ++ a ++ f3 ++ d ++ op) &&&
        (BitVec.allOnes 7 ++ 0#5 ++ 0#5 ++ BitVec.allOnes 3 ++ 0#5 ++ BitVec.allOnes 7) =
      f ++ 0#5 ++ 0#5 ++ f3 ++ 0#5 ++ op := by
  simp only [BitVec.and_append, BitVec.and_allOnes, BitVec.and_zero]

/-- The mask drops the operand fields of a layout and nothing else. -/
theorem layout_and_encMask (f : BitVec 7) (t a d : BitVec 5) : layout f t a d &&& encMask = layout f 0 0 0 := by
  rw [encMask_eq_fields]
  exact and_fields f _ t a d _

/-- A field that the mask covers with ones reads the same from the masked word. -/
theorem extractLsb'_and_encMask {start len : Nat} (h : encMask.extractLsb' start len = BitVec.allOnes len)
    (w : InstrWord) : (w &&& encMask).extractLsb' start len = w.extractLsb' start len := by
  rw [BitVec.extractLsb'_and, h, BitVec.and_allOnes]

/-- What matching a row means, field by field (R41, R42). -/
theorem and_encMask_eq_layout_iff {w : InstrWord} {f : BitVec 7} :
    w &&& encMask = layout f 0 0 0 ↔
      w.extractLsb' 0 7 = 0b1110111#7 ∧ w.extractLsb' 12 3 = 0b010#3 ∧ w.extractLsb' 25 7 = f := by
  constructor
  · intro h
    refine ⟨?_, ?_, ?_⟩
    · rw [← extractLsb'_and_encMask (by decide), h, layout_bits_0_6]
    · rw [← extractLsb'_and_encMask (by decide), h, layout_bits_12_14]
    · rw [← extractLsb'_and_encMask (by decide), h, layout_bits_25_31]
  · rintro ⟨hop, hf3, rfl⟩
    calc w &&& encMask
        = layout (w.extractLsb' 25 7) (w.extractLsb' 20 5) (w.extractLsb' 15 5) (w.extractLsb' 7 5) &&& encMask := by
          rw [layout_of_fields hop hf3]
      _ = layout (w.extractLsb' 25 7) 0 0 0 := layout_and_encMask ..

/-- A word that matches a row decodes by it: no other row can match (R42). -/
theorem decodeWord_of_mem {w : InstrWord} {r : EncRow} (hr : r ∈ encTable) (hw : w &&& encMask = r.matchWord) :
    decodeWord w = some (r.mnemonic.fromWord w) := by
  cases hi : decodeWord w with
  | none => exact absurd hw (decodeWord_eq_none.1 hi r hr)
  | some i =>
    obtain ⟨r', hr', hw', rfl⟩ := decodeWord_eq_some hi
    have : r' = r := List.inj_on_of_nodup_map encTable_matchWords_nodup hr' hr (hw'.symm.trans hw)
    rw [this]

/-- The decoder by fields: the group's opcode and funct3, and the funct7 of a row, whose mnemonic takes the operands. -/
theorem decodeWord_eq_some_iff {w : InstrWord} {i : Instr} :
    decodeWord w = some i ↔
      w.extractLsb' 0 7 = 0b1110111#7 ∧ w.extractLsb' 12 3 = 0b010#3 ∧
        ∃ r ∈ encTable, w.extractLsb' 25 7 = r.mnemonic.funct7 ∧ i = r.mnemonic.fromWord w := by
  constructor
  · intro h
    obtain ⟨r, hr, hw, hi⟩ := decodeWord_eq_some h
    rw [encTable_matchWord_eq r hr] at hw
    obtain ⟨hop, hf3, hf7⟩ := and_encMask_eq_layout_iff.1 hw
    exact ⟨hop, hf3, r, hr, hf7, hi⟩
  · rintro ⟨hop, hf3, r, hr, hf7, rfl⟩
    apply decodeWord_of_mem hr
    rw [encTable_matchWord_eq r hr]
    exact and_encMask_eq_layout_iff.2 ⟨hop, hf3, hf7⟩

/-- Every mnemonic has a row. -/
theorem exists_mem_encTable (m : Mnemonic) : ∃ r ∈ encTable, r.mnemonic = m := by
  cases m <;> decide

/-! The operands of a word. -/

/-- Well-formedness is about an immediate amount alone (R38). -/
theorem wellFormed_iff {i : Instr} : i.WellFormed ↔ ∀ n, i.amount = .imm n → n < 32 := by
  unfold Instr.WellFormed Instr.wf
  cases i.amount <;> simp

theorem imm5uField_lt (w : InstrWord) : imm5uField w < 32 := BitVec.isLt _

/-- A five-bit field is no immediate outside the range. -/
theorem fromWord_wellFormed (m : Mnemonic) (w : InstrWord) : (m.fromWord w).WellFormed := by
  cases m
  case kslli32 | slli32 | srai32 | srai32u | srli32 | srli32u => exact decide_eq_true (imm5uField_lt w)
  case ksll32 | kslra32 | kslra32u | sll32 | sra32 | sra32u | srl32 | srl32u => rfl

/-- The encoder writes bits 24:20 back as the decoder read them, as imm5u or as rs2. -/
@[simp] theorem fromWord_amount_field (m : Mnemonic) (w : InstrWord) :
    (m.fromWord w).amount.field = w.extractLsb' 20 5 := by
  cases m
  case kslli32 | slli32 | srai32 | srai32u | srli32 | srli32u =>
    exact (BitVec.ofNat_toNat 5 _).trans (BitVec.setWidth_eq _)
  case ksll32 | kslra32 | kslra32u | sll32 | sra32 | sra32u | srl32 | srl32u => rfl

/-- The decoder reads every operand back from the layout that the encoder writes. -/
theorem fromWord_layout_of_wellFormed {i : Instr} (h : i.WellFormed) (f : BitVec 7) :
    i.mnemonic.fromWord (layout f i.amount.field (BitVec.ofFin i.rs1) (BitVec.ofFin i.rd)) = i := by
  have himm := wellFormed_iff.1 h
  cases i <;> simp only [Instr.mnemonic, Instr.amount, Instr.rs1, Instr.rd, Mnemonic.fromWord, Amount.field,
    rdField_layout, rs1Field_layout, rs2Field_layout, imm5uField_layout, BitVec.toNat_ofNat]
  case kslli32 n | slli32 n | srai32 n | srai32u n | srli32 n | srli32u n =>
    rw [Nat.mod_eq_of_lt (himm n rfl)]

/-! Encoding against decoding. -/

theorem encode_of_wellFormed {i : Instr} (h : i.WellFormed) :
    encode i = some (layout i.mnemonic.funct7 i.amount.field (BitVec.ofFin i.rs1) (BitVec.ofFin i.rd)) := if_pos h

theorem encode_of_not_wellFormed {i : Instr} (h : ¬ i.WellFormed) : encode i = none := if_neg h

/-- Decoding after encoding. -/
theorem decodeWord_layout_of_wellFormed {i : Instr} (h : i.WellFormed) :
    decodeWord (layout i.mnemonic.funct7 i.amount.field (BitVec.ofFin i.rs1) (BitVec.ofFin i.rd)) = some i := by
  obtain ⟨r, hr, hm⟩ := exists_mem_encTable i.mnemonic
  refine decodeWord_eq_some_iff.2 ⟨layout_bits_0_6 .., layout_bits_12_14 .., r, hr, ?_, ?_⟩
  · rw [layout_bits_25_31, hm]
  · rw [hm, fromWord_layout_of_wellFormed h]

/-- Encoding after decoding. -/
theorem encode_of_decodeWord {w : InstrWord} {i : Instr} (h : decodeWord w = some i) :
    i.WellFormed ∧ encode i = some w := by
  obtain ⟨hop, hf3, r, -, hf7, rfl⟩ := decodeWord_eq_some_iff.1 h
  have hwf : (r.mnemonic.fromWord w).WellFormed := fromWord_wellFormed r.mnemonic w
  refine ⟨hwf, ?_⟩
  rw [encode_of_wellFormed hwf, fromWord_mnemonic, fromWord_amount_field, fromWord_rs1, fromWord_rd, ← hf7]
  exact congrArg some (layout_of_fields hop hf3)

end Sys2Proof

namespace Sys2Proof.Machine

/-- Decoding reads a word from its four bytes in memory order and leaves the bytes after them. -/
theorem decode_bytesOfWord_append {w : InstrWord} {i : Instr} (h : decodeWord w = some i) (rest : List Byte) :
    decode (bytesOfWord w ++ rest) = .ok (i, rest) := by
  simp [bytesOfWord, decode, wordOfBytes_wordByte, h]

/-- Settles O1: the encoder's layout lies in the mnemonic's row, and each operand is read back from its field. -/
theorem decodeOfEncodeIsTheInstruction : Obligations.DecodeOfEncodeIsTheInstruction := by
  intro i hi
  have hdec := decodeWord_layout_of_wellFormed hi
  exact ⟨_, encode_of_wellFormed hi, hdec, decode_bytesOfWord_append hdec⟩

/-- Settles O2: a decoded word is the layout of its own fields. -/
theorem encodeOfDecodeIsTheWord : Obligations.EncodeOfDecodeIsTheWord :=
  fun _ _ => encode_of_decodeWord

/-- The funct7 values of the rows, in decimal and in the table's order (R41). -/
theorem encTable_funct7_codes :
    encTable.map (fun r => r.mnemonic.funct7.toNat) = [40, 41, 42, 43, 48, 49, 50, 51, 56, 57, 58, 64, 65, 66] := rfl

/-- Settles O3: the decoder by fields, the rows' funct7 written as numbers. -/
theorem decoderAdmitsExactlyTheFunctCodes : Obligations.DecoderAdmitsExactlyTheFunctCodes := by
  intro w
  rw [← encTable_funct7_codes, List.mem_map]
  constructor
  · rintro ⟨i, hi⟩
    obtain ⟨hop, hf3, r, hr, hf7, -⟩ := decodeWord_eq_some_iff.1 hi
    exact ⟨hop, hf3, r, hr, by rw [hf7]⟩
  · rintro ⟨hop, hf3, r, hr, hf7⟩
    exact ⟨_, decodeWord_eq_some_iff.2 ⟨hop, hf3, r, hr, (BitVec.eq_of_toNat_eq hf7).symm, rfl⟩⟩

/-- Settles O6: each word evaluated. -/
theorem wordsOfTheSpecDecode : Obligations.WordsOfTheSpecDecode := by
  unfold Obligations.WordsOfTheSpecDecode
  decide

/-- Settles O44: a running state whose word is there and decodes takes the last branch of the step. -/
theorem stepRunsTheDecodedInstruction : Obligations.StepRunsTheDecodedInstruction := by
  intro s w i hs hw hi _
  exact step_of_decodeWord_some hs hw hi

/-- Settles O46: the values listed are the table's match words, so the word has no row. -/
theorem stepRefusesEveryOtherWord : Obligations.StepRefusesEveryOtherWord := by
  intro s w hs hw hne
  refine step_of_decodeWord_none hs hw (decodeWord_eq_none.2 fun r hr => hne r.matchWord ?_)
  have hmem : r.matchWord ∈ encTable.map EncRow.matchWord := List.mem_map_of_mem hr
  exact hmem

end Sys2Proof.Machine
end

section
/-! The assembler lines (spec/30_encoding.md R46, R47): a line stands for an instruction exactly when it is that
instruction's mnemonic with its operands as `asmOperands` writes them. -/

namespace Sys2Proof.Machine

theorem asmReg_eq_some_iff {n : Nat} {r : Reg} : asmReg n = some r ↔ n = r.val := by
  unfold asmReg
  split
  · simp [Fin.ext_iff]
  · simp only [reduceCtorEq, false_iff]
    omega

/-- The third operand of a line is an amount exactly as `asmThird` writes it, an immediate being 0 to 31. -/
theorem asmAmount_eq_some_iff {o : AsmOperand} {a : Amount} :
    asmAmount o = some a ↔ o = asmThird a ∧ ∀ n, a = .imm n → n < 32 := by
  cases o with
  | reg n => cases a <;> simp [asmAmount, asmThird, asmReg_eq_some_iff]
  | imm n =>
    cases a with
    | reg r => simp [asmAmount, asmThird]
    | imm k =>
      simp only [asmAmount, asmThird, Option.ite_none_right_eq_some, Option.some.injEq, Amount.imm.injEq,
        AsmOperand.imm.injEq, forall_eq']
      omega

/-- A mnemonic with operands is the one instruction that has them. -/
theorem withOperands_eq_some_iff {m : Mnemonic} {rd rs1 : Reg} {a : Amount} {i : Instr} :
    withOperands m rd rs1 a = some i ↔ i.mnemonic = m ∧ i.rd = rd ∧ i.rs1 = rs1 ∧ i.amount = a := by
  constructor
  · intro h
    unfold withOperands at h
    split at h <;> cases h <;> exact ⟨rfl, rfl, rfl, rfl⟩
  · rintro ⟨rfl, rfl, rfl, rfl⟩
    cases i <;> rfl

/-- What a line must be to stand for an instruction: two registers and a third operand, each one read. -/
theorem assemble_eq_some_iff_operands {m : Mnemonic} {ops : List AsmOperand} {i : Instr} :
    assemble m ops = some i ↔ ∃ d s third rd rs1 a, ops = [.reg d, .reg s, third] ∧ asmReg d = some rd ∧
      asmReg s = some rs1 ∧ asmAmount third = some a ∧ withOperands m rd rs1 a = some i := by
  constructor
  · intro h
    unfold assemble at h
    split at h
    · split at h
      · rename_i d s third _ _ _ rd rs1 a hd hs ha
        exact ⟨d, s, third, rd, rs1, a, rfl, hd, hs, ha, h⟩
      · cases h
    · cases h
  · rintro ⟨d, s, third, rd, rs1, a, rfl, hd, hs, ha, hi⟩
    simp only [assemble, hd, hs, ha, hi]

theorem assemble_eq_some_iff {m : Mnemonic} {ops : List AsmOperand} {i : Instr} :
    assemble m ops = some i ↔ i.WellFormed ∧ i.mnemonic = m ∧ asmOperands i = ops := by
  simp only [assemble_eq_some_iff_operands, asmReg_eq_some_iff, asmAmount_eq_some_iff, withOperands_eq_some_iff,
    wellFormed_iff]
  constructor
  · rintro ⟨_, _, _, _, _, _, rfl, rfl, rfl, ⟨rfl, hlt⟩, rfl, rfl, rfl, rfl⟩
    exact ⟨hlt, rfl, rfl⟩
  · rintro ⟨hlt, rfl, rfl⟩
    exact ⟨_, _, _, _, _, _, rfl, rfl, rfl, ⟨rfl, hlt⟩, rfl, rfl, rfl, rfl⟩

/-- Settles O5: the two directions of `assemble_eq_some_iff`. -/
theorem assemblerLineRoundTrip : Obligations.AssemblerLineRoundTrip :=
  ⟨fun _ hi => assemble_eq_some_iff.2 ⟨hi, rfl, rfl⟩, fun _ _ _ => assemble_eq_some_iff.1⟩

/-- A third operand that no amount writes rejects the line. -/
theorem assemble_of_asmAmount_none {third : AsmOperand} (h : asmAmount third = none) (m : Mnemonic) (d s : Nat) :
    assemble m [.reg d, .reg s, third] = none := by
  rw [Option.eq_none_iff_forall_ne_some]
  intro i hi
  obtain ⟨_, _, _, _, _, _, hops, -, -, ha, -⟩ := assemble_eq_some_iff_operands.1 hi
  cases hops
  simp [h] at ha

/-- Settles O4: a word decodes to well-formed instructions only, and no amount is written by an integer out of range. -/
theorem outOfRangeImmediateHasNoEncoding : Obligations.OutOfRangeImmediateHasNoEncoding := by
  refine ⟨fun i hi => ⟨encode_of_not_wellFormed hi, fun w hw => hi (encode_of_decodeWord hw).1⟩,
    fun m d s n hn => assemble_of_asmAmount_none ?_ m d s⟩
  have hout : ¬ (0 ≤ n ∧ n < 32) := by omega
  exact if_neg hout

end Sys2Proof.Machine
end

section
/-! What an instruction leaves out of account (spec/30_encoding.md R39, R40, R44): the high bits of the amount register,
and the write to x[0]. -/

namespace Sys2Proof.Machine

/-! The amount register. -/

/-- Equal low five bits are equal amounts, a write to x[0] being dropped. -/
theorem regAmount_writeReg_of_mod_eq {s : State} {r : Reg} {v : Word}
    (h : v.toNat % 32 = (s.readReg r).toNat % 32) : (s.writeReg r v).regAmount r = s.regAmount r := by
  by_cases hr : r = 0
  · rw [hr, writeReg_zero]
  · rw [regAmount_eq_lowFive, regAmount_eq_lowFive, readReg_writeReg_self, if_neg hr]
    exact h

/-- Equal low six bits are equal signed amounts, a write to x[0] being dropped. -/
theorem signedAmount_writeReg_of_mod_eq {s : State} {r : Reg} {v : Word}
    (h : v.toNat % 64 = (s.readReg r).toNat % 64) : (s.writeReg r v).signedAmount r = s.signedAmount r := by
  by_cases hr : r = 0
  · rw [hr, writeReg_zero]
  · rw [signedAmount_eq_lowSixSigned, signedAmount_eq_lowSixSigned, readReg_writeReg_self, if_neg hr]
    simp only [lowSixSigned, h]

/-- States with the same five-bit amount have the same element function (R39). -/
theorem exec_eq_satLaneOp_of_regAmount_eq {rd rs1 rs2 : Reg} {s s' : State} (h : s'.regAmount rs2 = s.regAmount rs2) :
    ∀ i ∈ [Instr.sll32 rd rs1 rs2, .sra32 rd rs1 rs2, .sra32u rd rs1 rs2, .srl32 rd rs1 rs2, .srl32u rd rs1 rs2,
      .ksll32 rd rs1 rs2],
      ∃ f, exec i s = satLaneOp f rd rs1 s ∧ exec i s' = satLaneOp f rd rs1 s' := by
  simp only [List.forall_mem_cons, List.not_mem_nil, false_imp_iff, implies_true, and_true, exec_sll32, exec_sra32,
    exec_sra32u, exec_srl32, exec_srl32u, exec_ksll32, laneOp_eq_satLaneOp, h]
  exact ⟨⟨_, rfl, rfl⟩, ⟨_, rfl, rfl⟩, ⟨_, rfl, rfl⟩, ⟨_, rfl, rfl⟩, ⟨_, rfl, rfl⟩, ⟨_, rfl, rfl⟩⟩

/-- States with the same signed amount have the same element function (R40). -/
theorem exec_eq_satLaneOp_of_signedAmount_eq {rd rs1 rs2 : Reg} {s s' : State}
    (h : s'.signedAmount rs2 = s.signedAmount rs2) :
    ∀ i ∈ [Instr.kslra32 rd rs1 rs2, .kslra32u rd rs1 rs2],
      ∃ f, exec i s = satLaneOp f rd rs1 s ∧ exec i s' = satLaneOp f rd rs1 s' := by
  simp only [List.forall_mem_cons, List.not_mem_nil, false_imp_iff, implies_true, and_true, exec_kslra32,
    exec_kslra32u, h]
  exact ⟨⟨_, rfl, rfl⟩, ⟨_, rfl, rfl⟩⟩

/-- A write to a register other than the element source changes the result only through the element function. -/
theorem exec_agree_of_writeReg_ne {i : Instr} {rd rs1 r : Reg} {v : Word} {s : State} (hne : r ≠ rs1)
    (h : ∃ f, exec i s = satLaneOp f rd rs1 s ∧ exec i (s.writeReg r v) = satLaneOp f rd rs1 (s.writeReg r v)) :
    ∃ t t', exec i s = .next t ∧ exec i (s.writeReg r v) = .next t' ∧ t.readReg rd = t'.readReg rd ∧
      t.ov = t'.ov := by
  obtain ⟨f, hf, hf'⟩ := h
  obtain ⟨t, ht⟩ := satLaneOp_completes f rd rs1 s
  obtain ⟨t', ht'⟩ := satLaneOp_completes f rd rs1 (s.writeReg r v)
  have hsrc : s.readReg rs1 = (s.writeReg r v).readReg rs1 := by simp [readReg_writeReg, hne.symm]
  obtain ⟨hrd, hov, -⟩ := satLaneOp_agree hsrc ht ht'
  exact ⟨t, t', hf.trans ht, hf'.trans ht', hrd, hov (writeReg_ov s r v).symm⟩

/-- Settles O31: the amount is all that is taken from x[rs2], and the bits replaced are not in it. -/
theorem amountIgnoresHighBits : Obligations.AmountIgnoresHighBits := by
  intro rd rs1 rs2 v s hne
  refine ⟨fun hlow i hi => ?_, fun hlow i hi => ?_⟩
  · have hamount := regAmount_writeReg_of_mod_eq hlow
    exact exec_agree_of_writeReg_ne hne (exec_eq_satLaneOp_of_regAmount_eq hamount i hi)
  · have hamount := signedAmount_writeReg_of_mod_eq hlow
    exact exec_agree_of_writeReg_ne hne (exec_eq_satLaneOp_of_signedAmount_eq hamount i hi)

/-! The destination x[0]. -/

/-- With rd = 0 a next state differs from the state before in pc and at most in OV. -/
theorem exec_next_of_rd_zero {i : Instr} {s t : State} (hrd : i.rd = 0) (h : exec i s = .next t) :
    t = { s with pc := s.pc + 4#64, ov := t.ov } := by
  obtain ⟨v, a, b, rfl⟩ := exec_next h
  simp [hrd, setOvIf_eq_with_ov, State.advancePc]

/-- Settles O37: with rd = 0 OV alone is left to say, and each clause says it. -/
theorem rdZeroChangesPcAndAtMostOv : Obligations.RdZeroChangesPcAndAtMostOv := by
  intro i s hrd
  obtain ⟨t, ht⟩ := everyInstructionAnswersANextState i s
  have hframe := exec_next_of_rd_zero hrd ht
  refine ⟨fun hm => ?_, fun hsat => ?_⟩
  · rw [exec_next_ov_of_mnemonic hm ht] at hframe
    rw [ht, hframe]
  · rw [(exec_next_ov_iff ht).2 (.inr hsat)] at hframe
    rw [ht, hframe]

end Sys2Proof.Machine
end

section
/-! The element-level operations as integer arithmetic (spec/40_simd32_lane_operations.md R51 to R56, the derived
forms).

The idea is that the top bits of a vector are the floor of its quotient by a power of two, signed or unsigned. A plain
right shift is that quotient, a rounding one is the plain shift by one place less, halved with its last bit rounded up,
and a saturating left shift is in range exactly where two such quotients agree. -/

namespace Sys2Proof.Machine

/-! The top bits of a vector, its last bit, and halving. -/

/-- The top bits read as unsigned. -/
theorem toNat_topBits {m n len : Nat} (x : BitVec m) (h : n + len = m) :
    (x.extractLsb' n len).toNat = x.toNat / 2 ^ n := by
  rw [BitVec.extractLsb'_toNat, Nat.shiftRight_eq_div_pow]
  apply Nat.mod_eq_of_lt
  rw [Nat.div_lt_iff_lt_mul (by positivity), ← Nat.pow_add, Nat.add_comm len, h]
  exact x.isLt

/-- The top bits read as signed: widened again they are the arithmetic shift of the vector. -/
theorem toInt_topBits {m n len : Nat} (x : BitVec m) (h : n + len = m) (hlen : 0 < len) :
    (x.extractLsb' n len).toInt = x.toInt / 2 ^ n := by
  have hshift : (x.extractLsb' n len).signExtend m = x.sshiftRight n := by
    apply BitVec.eq_of_getLsbD_eq
    intro k hk
    have hiff : k < len ↔ n + k < m := by omega
    have hmsb : n + (len - 1) = m - 1 := by omega
    simp only [BitVec.getLsbD_signExtend, BitVec.getLsbD_sshiftRight, BitVec.msb_eq_getLsbD_last,
      BitVec.getLsbD_extractLsb', hiff, hmsb]
    split
    · next hnk => simp [hk, hk.not_ge, hnk]
    · simp [hk, hlen]
  rw [← BitVec.toInt_signExtend_of_le (show len ≤ m by omega), hshift, BitVec.toInt_sshiftRight,
    Int.shiftRight_eq_div_pow, Nat.cast_pow, Nat.cast_ofNat]

theorem toNat_mod_two_eq (x : Elem) : x.toNat % 2 = if x.getLsbD 0 then 1 else 0 := by
  rw [← BitVec.testBit_toNat, Nat.testBit_zero]
  split <;> simp_all

/-- Halving with the last bit rounded up, unsigned. -/
theorem toNat_add_one_div_two (x : Elem) : (x.toNat + 1) / 2 = x.toNat / 2 + if x.getLsbD 0 then 1 else 0 := by
  rw [← toNat_mod_two_eq]
  omega

/-- Halving with the last bit rounded up, signed: the sign bit weighs an even number. -/
theorem toInt_add_one_div_two (x : Elem) : (x.toInt + 1) / 2 = x.toInt / 2 + if x.getLsbD 0 then 1 else 0 := by
  have hlast : ((if x.getLsbD 0 then 1 else 0 : Nat) : Int) = if x.getLsbD 0 then 1 else 0 := by split <;> rfl
  rw [← hlast, ← toNat_mod_two_eq, BitVec.toInt_eq_toNat_cond]
  split <;> omega

/-- Rounding to nearest in one division is a floor division by half the divisor, then a halving (R53, R55). -/
theorem add_half_div {z : Int} {sa : Nat} (h : 1 ≤ sa) : (z + 2 ^ (sa - 1)) / 2 ^ sa = (z / 2 ^ (sa - 1) + 1) / 2 := by
  obtain ⟨n, rfl⟩ : ∃ n, sa = n + 1 := ⟨sa - 1, by omega⟩
  have hpos : (0 : Int) < 2 ^ n := by positivity
  rw [Nat.add_sub_cancel, pow_succ, ← Int.ediv_ediv_of_nonneg hpos.le, Int.add_ediv_of_dvd_right dvd_rfl,
    Int.ediv_self hpos.ne']

/-! The plain shifts. -/

@[simp] theorem sllLane_zero (w : Elem) : sllLane w 0 = w := by simp [sllLane]

@[simp] theorem sraLane_zero (w : Elem) : sraLane w 0 = w := rfl

@[simp] theorem srlLane_zero (w : Elem) : srlLane w 0 = w := rfl

/-- R51: a left shift is a product of vectors, which knows no sign. -/
theorem sllLane_eq_mul (w : Elem) (sa : Nat) : sllLane w sa = w * BitVec.ofNat 32 (2 ^ sa) := by
  rw [sllLane, BitVec.ofNat_mul, BitVec.ofNat_toNat, BitVec.setWidth_eq]

/-- R52: an arithmetic right shift is the floor of the signed quotient. -/
theorem toInt_sraLane (w : Elem) {sa : Nat} (h : sa < 32) : (sraLane w sa).toInt = w.toInt / 2 ^ sa := by
  unfold sraLane
  split
  · simp [*]
  · rw [BitVec.toInt_signExtend_of_le (by omega), toInt_topBits w (by omega) (by omega)]

/-- R54: a logical right shift is the floor of the unsigned quotient. -/
theorem toNat_srlLane (w : Elem) {sa : Nat} (h : sa < 32) : (srlLane w sa).toNat = w.toNat / 2 ^ sa := by
  unfold srlLane
  split
  · simp [*]
  · rw [BitVec.zeroExtend, BitVec.toNat_setWidth_of_le (by omega), toNat_topBits w (by omega)]

/-- A shift by one place more is one more halving. -/
theorem toInt_sraLane_halve (w : Elem) {sa : Nat} (h : 1 ≤ sa) (hsa : sa < 32) :
    (sraLane w sa).toInt = (sraLane w (sa - 1)).toInt / 2 := by
  rw [toInt_sraLane w hsa, toInt_sraLane w (by omega), Int.ediv_ediv_of_nonneg (by positivity), ← pow_succ,
    Nat.sub_add_cancel h]

theorem toNat_srlLane_halve (w : Elem) {sa : Nat} (h : 1 ≤ sa) (hsa : sa < 32) :
    (srlLane w sa).toNat = (srlLane w (sa - 1)).toNat / 2 := by
  rw [toNat_srlLane w hsa, toNat_srlLane w (by omega), Nat.div_div_eq_div_mul, ← pow_succ, Nat.sub_add_cancel h]

/-- Settles O7: the product of vectors is the product of either reading. -/
theorem sllLaneIgnoresSign : Obligations.SllLaneIgnoresSign := by
  intro w sa _
  have hpow : BitVec.ofInt 32 (2 ^ sa) = BitVec.ofNat 32 (2 ^ sa) := by
    rw [← BitVec.ofInt_natCast, Nat.cast_pow, Nat.cast_ofNat]
  rw [sllLane_eq_mul, BitVec.ofInt_mul, BitVec.ofInt_toInt, hpow]

/-- Settles O8: the shift is the vector of its own signed value. -/
theorem sraLaneIsFloorDivision : Obligations.SraLaneIsFloorDivision := by
  intro w sa hsa
  rw [← toInt_sraLane w hsa, BitVec.ofInt_toInt]

/-- Settles O9: the shift is the vector of its own unsigned value. -/
theorem srlLaneIsFloorDivision : Obligations.SrlLaneIsFloorDivision := by
  intro w sa hsa
  rw [← toNat_srlLane w hsa, BitVec.ofNat_toNat, BitVec.setWidth_eq]

/-! The rounding shifts. -/

@[simp] theorem srauLane_zero (w : Elem) : srauLane w 0 = w := rfl

@[simp] theorem srluLane_zero (w : Elem) : srluLane w 0 = w := rfl

/-- R53: the 33 bits keep the shift by one place less, to which 1 is added without overflow before the halving. -/
theorem toInt_srauLane_halve (w : Elem) {sa : Nat} (h : 1 ≤ sa) (hsa : sa < 32) :
    (srauLane w sa).toInt = ((sraLane w (sa - 1)).toInt + 1) / 2 := by
  have hlo := (sraLane w (sa - 1)).le_toInt
  have hhi := (sraLane w (sa - 1)).toInt_lt
  have ht : ((w.extractLsb' (sa - 1) (33 - sa)).signExtend 33).toInt = (sraLane w (sa - 1)).toInt := by
    rw [BitVec.toInt_signExtend_of_le (by omega), toInt_topBits w (by omega) (by omega),
      toInt_sraLane w (by omega)]
  have hne : sa ≠ 0 := by omega
  simp only [srauLane, hne, if_false, ht]
  rw [toInt_topBits _ rfl (by omega), BitVec.toInt_ofInt_eq_self (by omega) (by omega) (by omega), pow_one]

/-- R55: as R53, unsigned. -/
theorem toNat_srluLane_halve (w : Elem) {sa : Nat} (h : 1 ≤ sa) (hsa : sa < 32) :
    (srluLane w sa).toNat = ((srlLane w (sa - 1)).toNat + 1) / 2 := by
  have hlt := (srlLane w (sa - 1)).isLt
  have ht : ((w.extractLsb' (sa - 1) (33 - sa)).zeroExtend 33).toNat = (srlLane w (sa - 1)).toNat := by
    rw [BitVec.zeroExtend, BitVec.toNat_setWidth_of_le (by omega), toNat_topBits w (by omega),
      toNat_srlLane w (by omega)]
  have hne : sa ≠ 0 := by omega
  simp only [srluLane, hne, if_false, ht]
  rw [toNat_topBits _ rfl, BitVec.toNat_ofNat, Nat.mod_eq_of_lt (by omega), pow_one]

/-- R53's form (a) as an equation of integers. -/
theorem toInt_srauLane (w : Elem) {sa : Nat} (h : 1 ≤ sa) (hsa : sa < 32) :
    (srauLane w sa).toInt = (w.toInt + 2 ^ (sa - 1)) / 2 ^ sa := by
  rw [toInt_srauLane_halve w h hsa, toInt_sraLane w (by omega), add_half_div h]

/-- R55's form (a) as an equation of natural numbers. -/
theorem toNat_srluLane (w : Elem) {sa : Nat} (h : 1 ≤ sa) (hsa : sa < 32) :
    (srluLane w sa).toNat = (w.toNat + 2 ^ (sa - 1)) / 2 ^ sa := by
  rw [toNat_srluLane_halve w h hsa, toNat_srlLane w (by omega)]
  exact_mod_cast (add_half_div (z := w.toNat) h).symm

/-- The last bit that a right shift by sa discards is the last bit that the shift by one place less keeps. -/
theorem getLsbD_zero_sraLane_pred (w : Elem) {sa : Nat} (hsa : sa < 32) :
    (sraLane w (sa - 1)).getLsbD 0 = w.getLsbD (sa - 1) := by
  rw [getLsbD_sraLane w (by omega) (by omega), show min (0 + (sa - 1)) 31 = sa - 1 by omega]

theorem getLsbD_zero_srlLane_pred (w : Elem) {sa : Nat} (hsa : sa < 32) :
    (srlLane w (sa - 1)).getLsbD 0 = w.getLsbD (sa - 1) := by
  rw [getLsbD_srlLane w (by omega) (by omega)]
  simp
  omega

/-- Settles O10: form (a) is the rounded quotient; form (b) and the bound are read off the halving. -/
theorem srauLaneRoundsToNearest : Obligations.SrauLaneRoundsToNearest := by
  intro w sa hsa
  refine ⟨by rintro rfl; exact srauLane_zero w, fun h => ⟨?_, ?_, ?_⟩⟩
  · rw [← toInt_srauLane w h hsa, BitVec.ofInt_toInt]
  · rw [toInt_srauLane_halve w h hsa, toInt_sraLane_halve w h hsa, toInt_add_one_div_two,
      getLsbD_zero_sraLane_pred w hsa]
  · have hlo := (sraLane w (sa - 1)).le_toInt
    have hhi := (sraLane w (sa - 1)).toInt_lt
    rw [toInt_srauLane_halve w h hsa]
    omega

/-- Settles O11: form (a) is the rounded quotient; form (b) and the bound are read off the halving. -/
theorem srluLaneRoundsToNearest : Obligations.SrluLaneRoundsToNearest := by
  intro w sa hsa
  refine ⟨by rintro rfl; exact srluLane_zero w, fun h => ⟨?_, ?_, ?_⟩⟩
  · rw [← toNat_srluLane w h hsa, BitVec.ofNat_toNat, BitVec.setWidth_eq]
  · rw [toNat_srluLane_halve w h hsa, toNat_srlLane_halve w h hsa, toNat_add_one_div_two,
      getLsbD_zero_srlLane_pred w hsa]
  · have hlt := (srlLane w (sa - 1)).isLt
    rw [toNat_srluLane_halve w h hsa]
    omega

/-! The saturating left shift. -/

/-- The bits 31 down to n are all equal exactly when the shift by n leaves copies of the sign bit alone. -/
theorem topBits_eq_iff (w : Elem) {n : Nat} (hn : n < 32) :
    (∀ k, n ≤ k → k ≤ 31 → w.getLsbD k = w.getLsbD 31) ↔ sraLane w n = sraLane w 31 := by
  constructor
  · intro h
    apply BitVec.eq_of_getLsbD_eq
    intro k hk
    rw [getLsbD_sraLane w hn hk, getLsbD_sraLane w (by omega) hk, h (min (k + n) 31) (by omega) (by omega),
      show min (k + 31) 31 = 31 by omega]
  · intro h k hnk hk
    calc w.getLsbD k = (sraLane w n).getLsbD (k - n) := by
          rw [getLsbD_sraLane w hn (by omega), show min (k - n + n) 31 = k by omega]
      _ = w.getLsbD 31 := by
          rw [h, getLsbD_sraLane w (by omega) (by omega), show min (k - n + 31) 31 = 31 by omega]

/-- A product by 2^sa is in range exactly when the quotient by 2^(31 - sa) is 0 or -1. -/
theorem not_overflows_mul_iff (z : Int) {sa : Nat} (hsa : sa < 32) :
    ¬ Overflows (z * 2 ^ sa) ↔ -1 ≤ z / 2 ^ (31 - sa) ∧ z / 2 ^ (31 - sa) < 1 := by
  have hpow : (2 : Int) ^ 31 = 2 ^ (31 - sa) * 2 ^ sa := by rw [← pow_add, Nat.sub_add_cancel (by omega)]
  have hsapos : (0 : Int) < 2 ^ sa := by positivity
  have hnpos : (0 : Int) < 2 ^ (31 - sa) := by positivity
  have hlo : -(2 ^ 31) ≤ z * 2 ^ sa ↔ -1 ≤ z / 2 ^ (31 - sa) := by
    rw [hpow, ← Int.neg_mul, mul_le_mul_iff_left₀ hsapos, Int.le_ediv_iff_mul_le hnpos, Int.neg_one_mul]
  have hhi : z * 2 ^ sa < 2 ^ 31 ↔ z / 2 ^ (31 - sa) < 1 := by
    rw [hpow, mul_lt_mul_iff_left₀ hsapos, Int.ediv_lt_iff_lt_mul hnpos, one_mul]
  rw [← hlo, ← hhi]
  omega

/-- Of an element, such a quotient is 0 or -1 exactly when it is the quotient by 2^31, which the sign gives. -/
theorem not_overflows_iff_sraLane_eq (w : Elem) {sa : Nat} (hsa : sa < 32) :
    ¬ Overflows (w.toInt * 2 ^ sa) ↔ sraLane w (31 - sa) = sraLane w 31 := by
  have hlo := w.le_toInt
  have hhi := w.toInt_lt
  have hpos : (0 : Int) < 2 ^ (31 - sa) := by positivity
  rw [not_overflows_mul_iff _ hsa, ← BitVec.toInt_inj, toInt_sraLane w (by omega), toInt_sraLane w (by omega)]
  by_cases hsign : 0 ≤ w.toInt
  · have := Int.ediv_nonneg hsign hpos.le
    omega
  · have := Int.ediv_neg_of_neg_of_pos (Int.not_le.1 hsign) hpos
    omega

/-- The sign bit decides which bound a saturated element takes (R56). -/
theorem ksllLane_of_overflows (w : Elem) (sa : Nat) (h : Overflows (w.toInt * 2 ^ sa)) :
    ksllLane w sa = (if w.getLsbD 31 then 0x80000000#32 else 0x7FFFFFFF#32, true) := by
  have hpos : (0 : Int) < 2 ^ sa := by positivity
  have hsign : w.getLsbD 31 = decide (w.toInt * 2 ^ sa < 0) := by
    rw [← BitVec.msb_eq_getLsbD_last w, BitVec.msb_eq_toInt, decide_eq_decide, ← not_le, ← not_le,
      mul_nonneg_iff_of_pos_right hpos]
  obtain ⟨hp, hf⟩ | ⟨hp, hf⟩ | ⟨hle, hge, -⟩ := ksllLane_cases w sa
  · rw [hf, hsign, decide_eq_false (by omega), if_neg Bool.false_ne_true]
  · rw [hf, hsign, decide_eq_true (by omega), if_pos rfl]
  · omega

/-- An element that stays in range is the plain left shift (R56). -/
theorem ksllLane_of_not_overflows (w : Elem) {sa : Nat} (hsa : sa < 32) (h : ¬ Overflows (w.toInt * 2 ^ sa)) :
    ksllLane w sa = (sllLane w sa, false) := by
  obtain ⟨hp, -⟩ | ⟨hp, -⟩ | ⟨-, -, hf⟩ := ksllLane_cases w sa
  · exact absurd (.inl hp) h
  · exact absurd (.inr hp) h
  · rw [hf, sllLaneIgnoresSign w sa hsa]

theorem ksllLane_not_saturates_iff (w : Elem) (sa : Nat) :
    (ksllLane w sa).2 = false ↔ ¬ Overflows (w.toInt * 2 ^ sa) := by
  rw [← ksllLane_saturates_iff, Bool.not_eq_true]

/-- A shift by 0 is in range for every element. -/
@[simp] theorem ksllLane_zero (w : Elem) : ksllLane w 0 = (w, false) := by
  have hlo := w.le_toInt
  have hhi := w.toInt_lt
  have hrange : ¬ Overflows (w.toInt * 2 ^ 0) := by omega
  rw [ksllLane_of_not_overflows w (by omega) hrange, sllLane_zero]

/-- Settles O12: the product stays in range exactly when the top bits are copies of the sign bit. -/
theorem ksllLaneSaturatesWhenTopBitsDiffer : Obligations.KsllLaneSaturatesWhenTopBitsDiffer := by
  intro w sa hsa
  refine ⟨?_, fun h => ?_, fun h => ?_⟩
  · rw [topBits_eq_iff w (by omega), ksllLane_not_saturates_iff, not_overflows_iff_sraLane_eq w hsa]
  · rw [ksllLane_of_not_overflows w hsa ((ksllLane_not_saturates_iff w sa).1 h)]
  · rw [ksllLane_of_overflows w sa ((ksllLane_saturates_iff w sa).1 h)]

end Sys2Proof.Machine
end

section
/-! What the amount selects and what one element decides (spec/40_simd32_lane_operations.md R50, R57, R58): the shift
that KSLRA32 stands for, the amount 0, and the two elements apart.

The idea is again that every instruction is `satLaneOp` of an element function: two instructions with the same element
function do the same, one whose element function copies leaves all but x[rd] and pc, and each half of x[rd] is that
function of the same half of x[rs1]. -/

namespace Sys2Proof.Machine

/-! The shift that a signed amount selects (R57). -/

/-- A negative amount is a right shift by its absolute value, at most 31. -/
theorem kslraLane_neg_natCast (w : Elem) (u : Bool) {n : Nat} (h : 1 ≤ n) (hn : n ≤ 32) :
    kslraLane w (-(n : Int)) u = (if u then srauLane w (min n 31) else sraLane w (min n 31), false) := by
  have hamount : (if -(n : Int) = -32 then 31 else (- -(n : Int)).toNat) = min n 31 := by
    split <;> omega
  rw [kslraLane_neg w (by omega), hamount]

theorem kslraLane_natCast (w : Elem) (n : Nat) (u : Bool) : kslraLane w n u = ksllLane w n := by
  rw [kslraLane_nonneg w (Int.natCast_nonneg n), Int.toNat_natCast]

/-- An amount of 0 neither rounds nor saturates. -/
@[simp] theorem kslraLane_zero (w : Elem) (u : Bool) : kslraLane w 0 u = (w, false) :=
  (kslraLane_natCast w 0 u).trans (ksllLane_zero w)

/-- Settles O13: -32 and -31 both act as a right shift by 31, and an amount of 0 is a left shift by 0. -/
theorem kslraLaneChoosesByTheSign : Obligations.KslraLaneChoosesByTheSign := by
  intro w u
  have hneg : ∀ n : Nat, 1 ≤ n → n ≤ 32 →
      kslraLane w (-(n : Int)) u = (if u then srauLane w (min n 31) else sraLane w (min n 31), false) :=
    fun _ h hn => kslraLane_neg_natCast w u h hn
  have h32 : kslraLane w (-32) u = kslraLane w (-31) u :=
    (hneg 32 (by omega) (by omega)).trans (hneg 31 (by omega) (by omega)).symm
  exact ⟨hneg, fun n _ => kslraLane_natCast w n u, h32, kslraLane_zero w u⟩

/-! The instruction that a six-bit amount selects (R71, R72). -/

theorem signedAmount_of_mod_lt {s : State} {r : Reg} (h : (s.readReg r).toNat % 64 < 32) :
    s.signedAmount r = (s.regAmount r : Nat) := by
  rw [signedAmount_eq_lowSixSigned, regAmount_eq_lowFive, lowSixSigned, if_pos h, lowFive]
  omega

theorem signedAmount_of_le_mod {s : State} {r : Reg} (h : 32 ≤ (s.readReg r).toNat % 64) :
    s.signedAmount r = -((64 - (s.readReg r).toNat % 64 : Nat) : Int) := by
  rw [signedAmount_eq_lowSixSigned, lowSixSigned, if_neg (by omega)]
  omega

/-- A pattern below 32 selects the saturating left shift, whatever u is. -/
theorem satLaneOp_kslraLane_of_mod_lt {rs2 : Reg} {s : State} (h : (s.readReg rs2).toNat % 64 < 32) (rd rs1 : Reg)
    (u : Bool) :
    satLaneOp (fun w => kslraLane w (s.signedAmount rs2) u) rd rs1 s = exec (.ksll32 rd rs1 rs2) s := by
  simp only [signedAmount_of_mod_lt h, kslraLane_natCast, exec_ksll32]

/-- A pattern p from 32 on selects the right shift by 64 - p, at most 31. -/
theorem satLaneOp_kslraLane_of_le_mod {rs2 : Reg} {s : State} (h : 32 ≤ (s.readReg rs2).toNat % 64) (rd rs1 : Reg)
    (u : Bool) :
    satLaneOp (fun w => kslraLane w (s.signedAmount rs2) u) rd rs1 s =
      if u then exec (.srai32u rd rs1 (min (64 - (s.readReg rs2).toNat % 64) 31)) s
      else exec (.srai32 rd rs1 (min (64 - (s.readReg rs2).toNat % 64) 31)) s := by
  have hpos : 1 ≤ 64 - (s.readReg rs2).toNat % 64 := by omega
  have himm : ∀ n, immAmount (min n 31) = min n 31 := fun n => immAmount_of_lt (by omega)
  simp only [signedAmount_of_le_mod h, kslraLane_neg_natCast _ u hpos (by omega), exec_srai32u, exec_srai32, himm,
    laneOp_eq_satLaneOp]
  cases u <;> rfl

/-- Settles O29: a pattern below 32 is its own amount, and one from 32 on is 64 more than the amount. -/
theorem kslraMatchesTheShiftItSelects : Obligations.KslraMatchesTheShiftItSelects := by
  rintro rd rs1 rs2 _ s rfl
  refine ⟨fun h => ?_, fun h => ?_, fun h => ?_⟩
  · exact ⟨satLaneOp_kslraLane_of_mod_lt h rd rs1 false, satLaneOp_kslraLane_of_mod_lt h rd rs1 true⟩
  · have hright := satLaneOp_kslraLane_of_le_mod h.ge rd rs1
    rw [h] at hright
    exact ⟨hright false, hright true⟩
  · have hright := satLaneOp_kslraLane_of_le_mod (by omega : 32 ≤ (s.readReg rs2).toNat % 64) rd rs1
    rw [Nat.min_eq_left (by omega)] at hright
    exact ⟨hright false, hright true⟩

/-! The amount 0. -/

/-- The frame of every instruction (R50, R58). -/
theorem satLaneOp_writesOnly {f : Elem → Elem × Bool} {rd rs1 : Reg} {s t : State}
    (h : satLaneOp f rd rs1 s = .next t) :
    WritesOnly s t rd (pack (f (upper (s.readReg rs1))).1 (f (lower (s.readReg rs1))).1) := by
  obtain rfl := satLaneOp_next h
  refine ⟨fun r => ?_, ?_, ?_, fun a => ?_⟩
  · simp [readReg_writeReg]
  · simp [add_four_eq_ofNat]
  · simp
  · simp

/-- An element function that copies and never saturates copies x[rs1] and leaves OV alone. -/
theorem exec_copies {i : Instr} {rd rs1 : Reg} {s : State}
    (h : exec i s = satLaneOp (fun w => (w, false)) rd rs1 s) :
    ∃ t, exec i s = .next t ∧ WritesOnly s t rd (s.readReg rs1) ∧ t.ov = s.ov := by
  obtain ⟨t, ht⟩ := satLaneOp_completes (fun w => (w, false)) rd rs1 s
  have hframe := satLaneOp_writesOnly ht
  rw [pack_upper_lower] at hframe
  exact ⟨t, h.trans ht, hframe, by simp [satLaneOp_next ht]⟩

/-- Settles O32: by 0 each lane function copies the element, and the three ways to write an amount all read as 0. -/
theorem zeroAmountCopies : Obligations.ZeroAmountCopies := by
  intro rd rs1 rs2 s
  refine ⟨fun i hi => exec_copies ?_, fun hzero i hi => exec_copies ?_, fun hzero i hi => exec_copies ?_⟩
  · have himm : immAmount 0 = 0 := rfl
    revert i
    simp [laneOp_eq_satLaneOp, himm]
  · have hamount : s.regAmount rs2 = 0 := (regAmount_eq_lowFive s rs2).trans hzero
    revert i
    simp [laneOp_eq_satLaneOp, hamount]
  · have hamount : s.signedAmount rs2 = 0 := by simp [signedAmount_eq_lowSixSigned, lowSixSigned, hzero]
    revert i
    simp [hamount]

/-! The two elements (R50). -/

theorem satLaneOp_readReg_rd {f : Elem → Elem × Bool} {rd rs1 : Reg} {s t : State}
    (h : satLaneOp f rd rs1 s = .next t) :
    t.readReg rd = if rd = 0 then 0#64 else pack (f (upper (s.readReg rs1))).1 (f (lower (s.readReg rs1))).1 := by
  rw [satLaneOp_next h, readReg_advancePc, readReg_setOvIf, readReg_writeReg_self]

/-- One element function gives equal elements from equal ones, each half apart: what the other half holds and whether
it saturates is no matter. -/
theorem satLaneOp_elements_agree {f : Elem → Elem × Bool} {rd rs1 : Reg} {s s' t t' : State}
    (ht : satLaneOp f rd rs1 s = .next t) (ht' : satLaneOp f rd rs1 s' = .next t') :
    (upper (s.readReg rs1) = upper (s'.readReg rs1) → upper (t.readReg rd) = upper (t'.readReg rd)) ∧
    (lower (s.readReg rs1) = lower (s'.readReg rs1) → lower (t.readReg rd) = lower (t'.readReg rd)) := by
  rw [satLaneOp_readReg_rd ht, satLaneOp_readReg_rd ht']
  split
  · exact ⟨fun _ => rfl, fun _ => rfl⟩
  · simp only [upper_pack, lower_pack]
    exact ⟨fun h => by rw [h], fun h => by rw [h]⟩

/-- Settles O33: equal amounts give both states one element function, which serves each element apart. -/
theorem elementsAreIndependent : Obligations.ElementsAreIndependent := by
  intro i s s' hamount
  obtain ⟨f, hf, hf'⟩ := exec_eq_satLaneOp_of_amount_agrees hamount
  obtain ⟨t, ht⟩ := satLaneOp_completes f i.rd i.rs1 s
  obtain ⟨t', ht'⟩ := satLaneOp_completes f i.rd i.rs1 s'
  exact ⟨t, t', hf.trans ht, hf'.trans ht', satLaneOp_elements_agree ht ht'⟩

end Sys2Proof.Machine
end

section
/-! The immediate shifts (spec/41_simd32_shift_immediate.md R60 to R65): result, frame, encoding and worked examples.

The idea is that an instruction's effect is its element function's: what that function gives of each element, and where
it reports saturation, is what x[rd] and OV become. Each of the six then needs one fact about its lane function. -/

namespace Sys2Proof.Machine

/-! What each lane function computes (40_simd32_lane_operations.md R51 to R56). -/

theorem isSll_sllLane (w : Elem) (sa : Nat) : IsSll sa w (sllLane w sa) :=
  fun k hk => getLsbD_sllLane w sa k hk

theorem isSra_sraLane (w : Elem) {sa : Nat} (hsa : sa < 32) : IsSra sa w (sraLane w sa) :=
  fun _ hk => getLsbD_sraLane w hsa hk

theorem isSrl_srlLane (w : Elem) {sa : Nat} (hsa : sa < 32) : IsSrl sa w (srlLane w sa) :=
  fun _ hk => getLsbD_srlLane w hsa hk

theorem isSrau_srauLane (w : Elem) {sa : Nat} (hsa : sa < 32) : IsSrau sa w (srauLane w sa) := by
  unfold IsSrau
  split
  case isTrue hzero => rw [hzero, srauLane_zero]
  case isFalse hpos => exact toInt_srauLane w (Nat.one_le_iff_ne_zero.2 hpos) hsa

theorem isSrlu_srluLane (w : Elem) {sa : Nat} (hsa : sa < 32) : IsSrlu sa w (srluLane w sa) := by
  unfold IsSrlu
  split
  case isTrue hzero => rw [hzero, srluLane_zero]
  case isFalse hpos => exact toNat_srluLane w (Nat.one_le_iff_ne_zero.2 hpos) hsa

theorem isKsll_ksllLane (w : Elem) (sa : Nat) : IsKsll sa w (ksllLane w sa).1 := by
  obtain ⟨hp, hf⟩ | ⟨hp, hf⟩ | ⟨hle, hge, hf⟩ := ksllLane_cases w sa <;> rw [hf]
  · exact ⟨fun _ => rfl, fun h => by omega, fun h => absurd (.inl hp) h⟩
  · exact ⟨fun h => by omega, fun _ => rfl, fun h => absurd (.inr hp) h⟩
  · exact ⟨fun h => by omega, fun h => by omega,
      fun _ => BitVec.toInt_ofInt_eq_self (by omega) hge (Int.lt_of_le_sub_one hle)⟩

/-! The effect of an element function. -/

/-- `ElementsBy` by the halves that the meanings use. -/
theorem elementsBy_iff {P : Elem → Elem → Prop} {a v : Word} :
    ElementsBy P a v ↔ P (upper a) (upper v) ∧ P (lower a) (lower v) := Iff.rfl

theorem elementsBy_pack {P : Elem → Elem → Prop} {a : Word} {hi lo : Elem} :
    ElementsBy P a (pack hi lo) ↔ P (upper a) hi ∧ P (lower a) lo := by
  rw [elementsBy_iff, upper_pack, lower_pack]

/-- Result, frame and OV of the shape that may set OV: P is what the element function computes, Q where it saturates
(R50, R58). -/
theorem satLaneOp_effect {f : Elem → Elem × Bool} {P : Elem → Elem → Prop} {Q : Elem → Prop}
    (hP : ∀ w, P w (f w).1) (hQ : ∀ w, (f w).2 = true ↔ Q w) (rd rs1 : Reg) (s : State) :
    ∃ t v, satLaneOp f rd rs1 s = .next t ∧ ElementsBy P (s.readReg rs1) v ∧ WritesOnly s t rd v ∧
      (t.ov = true ↔ s.ov = true ∨ Q (upper (s.readReg rs1)) ∨ Q (lower (s.readReg rs1))) := by
  obtain ⟨t, ht⟩ := satLaneOp_completes f rd rs1 s
  refine ⟨t, _, ht, elementsBy_pack.2 ⟨hP _, hP _⟩, satLaneOp_writesOnly ht, ?_⟩
  simp only [satLaneOp_next ht, advancePc_ov, setOvIf_ov, writeReg_ov, Bool.or_eq_true, hQ, or_assoc]

/-- Result, frame and OV of the shape that leaves OV alone (R50). -/
theorem laneOp_effect {f : Elem → Elem} {P : Elem → Elem → Prop} (hP : ∀ w, P w (f w)) (rd rs1 : Reg) (s : State) :
    ∃ t v, laneOp f rd rs1 s = .next t ∧ ElementsBy P (s.readReg rs1) v ∧ WritesOnly s t rd v ∧ t.ov = s.ov := by
  rw [laneOp_eq_satLaneOp]
  obtain ⟨t, v, ht, hv, hframe, hov⟩ := satLaneOp_effect (f := fun w => (f w, false)) (Q := fun _ => False) hP
    (fun _ => iff_of_false Bool.false_ne_true id) rd rs1 s
  exact ⟨t, v, ht, hv, hframe, Bool.eq_iff_iff.2 (by simpa using hov)⟩

/-! One source value: what a worked example evaluates. -/

theorem satLaneOp_of_readReg {f : Elem → Elem × Bool} {rd rs1 : Reg} {s : State} {a v : Word} (hrd : rd ≠ 0)
    (hsrc : s.readReg rs1 = a) (hv : pack (f (upper a)).1 (f (lower a)).1 = v) :
    ∃ t, satLaneOp f rd rs1 s = .next t ∧ t.readReg rd = v ∧
      t.ov = (s.ov || (f (upper a)).2 || (f (lower a)).2) := by
  subst hsrc
  obtain ⟨t, ht⟩ := satLaneOp_completes f rd rs1 s
  refine ⟨t, ht, ?_, ?_⟩
  · rw [satLaneOp_readReg_rd ht, if_neg hrd, hv]
  · simp [satLaneOp_next ht]

theorem laneOp_of_readReg {f : Elem → Elem} {rd rs1 : Reg} {s : State} {a v : Word} (hrd : rd ≠ 0)
    (hsrc : s.readReg rs1 = a) (hv : lanes f a = v) : ∃ t, laneOp f rd rs1 s = .next t ∧ t.readReg rd = v := by
  rw [laneOp_eq_satLaneOp]
  obtain ⟨t, ht, hread, -⟩ := satLaneOp_of_readReg (f := fun w => (f w, false)) hrd hsrc hv
  exact ⟨t, ht, hread⟩

/-! The encoding. -/

/-- The word of R36's layout decodes to the instruction that its fields spell (R42). -/
theorem decodeWord_of_fields {i : Instr} {f : BitVec 7} {t a d : BitVec 5} (hwf : i.WellFormed)
    (hf : i.mnemonic.funct7 = f) (ht : i.amount.field = t) (ha : i.rs1 = a.toFin) (hd : i.rd = d.toFin) :
    decodeWord (f ++ t ++ a ++ 0b010#3 ++ d ++ 0b1110111#7) = some i := by
  have h := decodeWord_layout_of_wellFormed hwf
  rw [hf, ht, ha, hd] at h
  exact h

/-- Bits 24:20 as the immediate: five bits are always in range (R38). -/
theorem decodeWord_of_immediate_fields {i : Instr} {f : BitVec 7} {t a d : BitVec 5} (hf : i.mnemonic.funct7 = f)
    (ht : i.amount = .imm t.toNat) (ha : i.rs1 = a.toFin) (hd : i.rd = d.toFin) :
    decodeWord (f ++ t ++ a ++ 0b010#3 ++ d ++ 0b1110111#7) = some i := by
  refine decodeWord_of_fields (wellFormed_iff.2 fun n hn => ?_) hf ?_ ha hd
  · cases ht.symm.trans hn
    exact t.isLt
  · simp [ht, Amount.field]

/-! The obligations of the immediate forms. -/

/-- Settles O14: the exact product where it is in range and the nearer bound where it is not. -/
theorem kslli32SaturatesAndShifts : Obligations.Kslli32SaturatesAndShifts := by
  refine ⟨fun rd rs1 n s hn => ?_, fun _ _ _ => decodeWord_of_immediate_fields rfl rfl rfl rfl, by decide,
    fun s hsrc hclear => ?_⟩
  · rw [exec_kslli32, immAmount_of_lt hn]
    exact satLaneOp_effect (fun w => isKsll_ksllLane w n) (fun w => ksllLane_saturates_iff w n) rd rs1 s
  · obtain ⟨t, ht, hread, hov⟩ := satLaneOp_of_readReg (f := fun w => ksllLane w (immAmount 7)) (rd := 5)
      (v := 0x7FFFFF807FFFFFFF#64) (by decide) hsrc (by decide)
    rw [hclear] at hov
    exact ⟨t, ht, hread, hov.trans (by decide)⟩

/-- Settles O15: bit k of an element comes from its bit k - imm5u. -/
theorem slli32ShiftsLeft : Obligations.Slli32ShiftsLeft := by
  refine ⟨fun rd rs1 n s hn => ?_, fun _ _ _ => decodeWord_of_immediate_fields rfl rfl rfl rfl, by decide,
    fun s hsrc => laneOp_of_readReg (by decide) hsrc (by decide)⟩
  rw [exec_slli32, immAmount_of_lt hn]
  exact laneOp_effect (fun w => isSll_sllLane w n) rd rs1 s

/-- Settles O16: bit k of an element comes from its bit k + imm5u, or from its sign bit above that. -/
theorem srai32ShiftsRightArithmetically : Obligations.Srai32ShiftsRightArithmetically := by
  refine ⟨fun rd rs1 n s hn => ?_, fun _ _ _ => decodeWord_of_immediate_fields rfl rfl rfl rfl, by decide,
    fun s hsrc => laneOp_of_readReg (by decide) hsrc (by decide), by decide,
    fun s hsrc => laneOp_of_readReg (by decide) hsrc (by decide)⟩
  rw [exec_srai32, immAmount_of_lt hn]
  exact laneOp_effect (fun w => isSra_sraLane w hn) rd rs1 s

/-- Settles O17: R53's form (a) of each element, whose amount 0 copies. -/
theorem srai32uRoundsToNearest : Obligations.Srai32uRoundsToNearest := by
  refine ⟨fun rd rs1 n s hn => ?_, fun _ _ _ => decodeWord_of_immediate_fields rfl rfl rfl rfl, by decide,
    fun s hsrc => laneOp_of_readReg (by decide) hsrc (by decide)⟩
  rw [exec_srai32u, immAmount_of_lt hn]
  exact laneOp_effect (fun w => isSrau_srauLane w hn) rd rs1 s

/-- Settles O18: bit k of an element comes from its bit k + imm5u, or is zero above that. -/
theorem srli32ShiftsRightLogically : Obligations.Srli32ShiftsRightLogically := by
  refine ⟨fun rd rs1 n s hn => ?_, fun _ _ _ => decodeWord_of_immediate_fields rfl rfl rfl rfl, by decide,
    fun s hsrc => laneOp_of_readReg (by decide) hsrc (by decide)⟩
  rw [exec_srli32, immAmount_of_lt hn]
  exact laneOp_effect (fun w => isSrl_srlLane w hn) rd rs1 s

/-- Settles O19: R55's form (a) of each element, whose amount 0 copies; the example with rd = 0 is that of any
instruction of the ten. -/
theorem srli32uRoundsToNearest : Obligations.Srli32uRoundsToNearest := by
  refine ⟨fun rd rs1 n s hn => ?_, fun _ _ _ => decodeWord_of_immediate_fields rfl rfl rfl rfl, by decide,
    fun s hsrc => laneOp_of_readReg (by decide) hsrc (by decide), by decide,
    fun s => (rdZeroChangesPcAndAtMostOv (.srli32u 0 0 0) s rfl).1 (by decide),
    fun rd rs1 s hrd hsrc => laneOp_of_readReg hrd hsrc (by decide),
    fun rd rs1 s hrd hsrc => laneOp_of_readReg hrd hsrc (by decide)⟩
  rw [exec_srli32u, immAmount_of_lt hn]
  exact laneOp_effect (fun w => isSrlu_srluLane w hn) rd rs1 s

/-- Settles O28: both forms take the same amount, and the pair has one lane function. -/
theorem immediateFormsMatchRegisterForms : Obligations.ImmediateFormsMatchRegisterForms := by
  rintro rd rs1 rs2 _ s rfl
  have hamount : immAmount (lowFive (s.readReg rs2)) = s.regAmount rs2 := by
    rw [immAmount_of_lt (lowFive_lt _), regAmount_eq_lowFive]
  simp only [exec_kslli32, exec_slli32, exec_srai32, exec_srai32u, exec_srli32, exec_srli32u, exec_ksll32, exec_sll32,
    exec_sra32, exec_sra32u, exec_srl32, exec_srl32u, hamount, and_self]

end Sys2Proof.Machine
end

section
/-! The register shifts (spec/42_simd32_shift_register.md R70 to R77): result, frame, encoding and worked examples.

An amount register only chooses which element function runs, so the effect lemmas of the immediate forms serve here as
well, once the amount is read as R39's low five bits or as R40's signed low six. -/

namespace Sys2Proof.Machine

/-! What the signed amount computes (40_simd32_lane_operations.md R57). -/

theorem isKslra_kslraLane (w : Elem) {amt : Int} (hamt : -32 ≤ amt) (u : Bool) :
    IsKslra amt u w (kslraLane w amt u).1 := by
  unfold IsKslra
  split
  case isTrue hneg =>
    obtain ⟨n, rfl⟩ : ∃ n : Nat, amt = -(n : Int) := ⟨(-amt).toNat, by omega⟩
    rw [kslraLane_neg_natCast w u (by omega) (by omega), Int.neg_neg, Int.toNat_natCast]
    have hright : min n 31 < 32 := by omega
    cases u
    case false => exact isSra_sraLane w hright
    case true => exact isSrau_srauLane w hright
  case isFalse hnonneg =>
    rw [kslraLane_nonneg w (Int.not_lt.1 hnonneg)]
    exact isKsll_ksllLane w amt.toNat

/-! The effect of a register amount. -/

/-- Result, frame and OV of the five that leave OV alone: P is what the lane function computes by an amount of R39. -/
theorem laneOp_regAmount_effect {g : Elem → Nat → Elem} {P : Nat → Elem → Elem → Prop}
    (hP : ∀ w {sa}, sa < 32 → P sa w (g w sa)) (rd rs1 rs2 : Reg) (s : State) :
    ∃ t v, laneOp (fun w => g w (s.regAmount rs2)) rd rs1 s = .next t ∧
      ElementsBy (P (lowFive (s.readReg rs2))) (s.readReg rs1) v ∧ WritesOnly s t rd v ∧ t.ov = s.ov := by
  rw [regAmount_eq_lowFive]
  exact laneOp_effect (fun w => hP w (lowFive_lt _)) rd rs1 s

/-- Result, frame and OV of the two that shift either way; u only chooses the right shift. -/
theorem satLaneOp_kslraLane_effect (u : Bool) (rd rs1 rs2 : Reg) (s : State) :
    ∃ t v, satLaneOp (fun w => kslraLane w (s.signedAmount rs2) u) rd rs1 s = .next t ∧
      ElementsBy (IsKslra (lowSixSigned (s.readReg rs2)) u) (s.readReg rs1) v ∧ WritesOnly s t rd v ∧
      (t.ov = true ↔ s.ov = true ∨
        (0 ≤ lowSixSigned (s.readReg rs2) ∧
          Overflows ((upper (s.readReg rs1)).toInt * 2 ^ (lowSixSigned (s.readReg rs2)).toNat)) ∨
        (0 ≤ lowSixSigned (s.readReg rs2) ∧
          Overflows ((lower (s.readReg rs1)).toInt * 2 ^ (lowSixSigned (s.readReg rs2)).toNat))) := by
  rw [signedAmount_eq_lowSixSigned]
  exact satLaneOp_effect (fun w => isKslra_kslraLane w (lowSixSigned_bounds _).1 u)
    (fun w => kslraLane_saturates_iff w _ u) rd rs1 s

/-! Two source values: what a worked example evaluates. -/

theorem laneOp_regAmount_of_readReg {g : Elem → Nat → Elem} {rd rs1 rs2 : Reg} {s : State} {a b v : Word}
    (hrd : rd ≠ 0) (hsrc : s.readReg rs1 = a) (hamt : s.readReg rs2 = b) (hv : lanes (fun w => g w (lowFive b)) a = v) :
    ∃ t, laneOp (fun w => g w (s.regAmount rs2)) rd rs1 s = .next t ∧ t.readReg rd = v := by
  rw [regAmount_eq_lowFive, hamt]
  exact laneOp_of_readReg hrd hsrc hv

theorem laneOp_next_ov {f : Elem → Elem} {rd rs1 : Reg} {s t : State} (h : laneOp f rd rs1 s = .next t) :
    t.ov = s.ov := by
  simp [laneOp_next h]

theorem satLaneOp_kslraLane_of_readReg {u o : Bool} {rd rs1 rs2 : Reg} {s : State} {a b v : Word} (hrd : rd ≠ 0)
    (hsrc : s.readReg rs1 = a) (hamt : s.readReg rs2 = b)
    (hv : pack (kslraLane (upper a) (lowSixSigned b) u).1 (kslraLane (lower a) (lowSixSigned b) u).1 = v)
    (ho : ((kslraLane (upper a) (lowSixSigned b) u).2 || (kslraLane (lower a) (lowSixSigned b) u).2) = o) :
    ∃ t, satLaneOp (fun w => kslraLane w (s.signedAmount rs2) u) rd rs1 s = .next t ∧ t.readReg rd = v ∧
      t.ov = (s.ov || o) := by
  rw [signedAmount_eq_lowSixSigned, hamt]
  obtain ⟨t, ht, hread, hov⟩ := satLaneOp_of_readReg (f := fun w => kslraLane w (lowSixSigned b) u) hrd hsrc hv
  exact ⟨t, ht, hread, by rw [hov, Bool.or_assoc, ho]⟩

/-! The encoding. -/

/-- Bits 24:20 as the amount register: every number is legal (R37, R39). -/
theorem decodeWord_of_register_fields {i : Instr} {f : BitVec 7} {t a d : BitVec 5} (hf : i.mnemonic.funct7 = f)
    (ht : i.amount = .reg t.toFin) (ha : i.rs1 = a.toFin) (hd : i.rd = d.toFin) :
    decodeWord (f ++ t ++ a ++ 0b010#3 ++ d ++ 0b1110111#7) = some i :=
  decodeWord_of_fields (wellFormed_iff.2 fun _ hn => nomatch ht.symm.trans hn) hf (congrArg Amount.field ht) ha hd

/-! The obligations of the register forms. -/

/-- Settles O20: the exact product where it is in range and the nearer bound where it is not. -/
theorem ksll32SaturatesAndShifts : Obligations.Ksll32SaturatesAndShifts := by
  refine ⟨fun rd rs1 rs2 s => ?_, fun _ _ _ => decodeWord_of_register_fields rfl rfl rfl rfl, by decide,
    fun s hsrc hamt hclear => ?_⟩
  · rw [exec_ksll32, regAmount_eq_lowFive]
    exact satLaneOp_effect (fun w => isKsll_ksllLane w _) (fun w => ksllLane_saturates_iff w _) rd rs1 s
  · rw [exec_ksll32, regAmount_eq_lowFive, hamt]
    obtain ⟨t, ht, hread, hov⟩ := satLaneOp_of_readReg (f := fun w => ksllLane w (lowFive 0x105#64)) (rd := 5)
      (v := 0x7FFFFFFF7FFFFFE0#64) (by decide) hsrc (by decide)
    rw [hclear] at hov
    exact ⟨t, ht, hread, hov.trans (by decide)⟩

/-- Settles O21: the sign of the amount chooses R56's clamped product or R52's arithmetic shift, and only the former
sets OV. -/
theorem kslra32ShiftsEitherWay : Obligations.Kslra32ShiftsEitherWay := by
  refine ⟨satLaneOp_kslraLane_effect false, fun _ _ _ => decodeWord_of_register_fields rfl rfl rfl rfl, by decide,
    fun s hsrc hamt hclear => ?right, fun s hsrc hamt _ => ?left⟩
  case right =>
    obtain ⟨t, ht, hread, hov⟩ := satLaneOp_kslraLane_of_readReg (u := false) (o := false) (rd := 5)
      (v := 0xF8765432FFEDCBA9#64) (by decide) hsrc hamt (by decide) (by decide)
    exact ⟨t, ht, hread, by rw [hov, hclear, Bool.or_false]⟩
  case left =>
    obtain ⟨t, ht, hread, hov⟩ := satLaneOp_kslraLane_of_readReg (u := false) (o := true) (rd := 5)
      (v := 0x80000000EDCBA980#64) (by decide) hsrc hamt (by decide) (by decide)
    exact ⟨t, ht, hread, by rw [hov, Bool.or_true]⟩

/-- Settles O22: O21 with R53's form (a) for the right shift; the second example's amount is -32. -/
theorem kslra32uShiftsEitherWayRounding : Obligations.Kslra32uShiftsEitherWayRounding := by
  refine ⟨satLaneOp_kslraLane_effect true, fun _ _ _ => decodeWord_of_register_fields rfl rfl rfl rfl, by decide,
    fun s hsrc hamt => ?four, fun s hsrc hamt => ?thirtyTwo⟩
  case four =>
    obtain ⟨t, ht, hread, hov⟩ := satLaneOp_kslraLane_of_readReg (u := true) (o := false) (rd := 5)
      (v := 0xF8765432FFEDCBAA#64) (by decide) hsrc hamt (by decide) (by decide)
    exact ⟨t, ht, hread, by rw [hov, Bool.or_false]⟩
  case thirtyTwo =>
    obtain ⟨t, ht, hread, -⟩ := satLaneOp_kslraLane_of_readReg (u := true) (o := false) (rd := 5)
      (v := 0xFFFFFFFF00000001#64) (by decide) hsrc hamt (by decide) (by decide)
    exact ⟨t, ht, hread⟩

/-- Settles O23: bit k of an element comes from its bit k - sa. -/
theorem sll32ShiftsLeft : Obligations.Sll32ShiftsLeft := by
  refine ⟨laneOp_regAmount_effect fun w _ _ => isSll_sllLane w _,
    fun _ _ _ => decodeWord_of_register_fields rfl rfl rfl rfl, by decide, fun s hsrc hamt => ?_⟩
  obtain ⟨t, ht, hread⟩ := laneOp_regAmount_of_readReg (g := sllLane) (rd := 5) (v := 0x800000007FFFFFE0#64)
    (by decide) hsrc hamt (by decide)
  exact ⟨t, ht, hread, laneOp_next_ov ht⟩

/-- Settles O24: bit k of an element comes from its bit k + sa, or from its sign bit above that. -/
theorem sra32ShiftsRightArithmetically : Obligations.Sra32ShiftsRightArithmetically :=
  ⟨laneOp_regAmount_effect isSra_sraLane, fun _ _ _ => decodeWord_of_register_fields rfl rfl rfl rfl, by decide,
    fun _ hsrc hamt => laneOp_regAmount_of_readReg (g := sraLane) (by decide) hsrc hamt (by decide)⟩

/-- Settles O25: R53's form (a) of each element, whose amount 0 copies; SRA32 of the same sources does not round. -/
theorem sra32uRoundsToNearest : Obligations.Sra32uRoundsToNearest :=
  ⟨laneOp_regAmount_effect isSrau_srauLane, fun _ _ _ => decodeWord_of_register_fields rfl rfl rfl rfl, by decide,
    fun _ hsrc hamt => laneOp_regAmount_of_readReg (g := srauLane) (by decide) hsrc hamt (by decide),
    fun _ hsrc hamt => laneOp_regAmount_of_readReg (g := sraLane) (by decide) hsrc hamt (by decide)⟩

/-- Settles O26: bit k of an element comes from its bit k + sa, or is zero above that. -/
theorem srl32ShiftsRightLogically : Obligations.Srl32ShiftsRightLogically :=
  ⟨laneOp_regAmount_effect isSrl_srlLane, fun _ _ _ => decodeWord_of_register_fields rfl rfl rfl rfl, by decide,
    fun _ hsrc hamt => laneOp_regAmount_of_readReg (g := srlLane) (by decide) hsrc hamt (by decide)⟩

/-- Settles O27: R55's form (a) of each element, whose amount 0 copies. -/
theorem srl32uRoundsToNearest : Obligations.Srl32uRoundsToNearest :=
  ⟨laneOp_regAmount_effect isSrlu_srluLane, fun _ _ _ => decodeWord_of_register_fields rfl rfl rfl rfl, by decide,
    fun _ hsrc hamt => laneOp_regAmount_of_readReg (g := srluLane) (by decide) hsrc hamt (by decide)⟩

end Sys2Proof.Machine
end

section
/-! The C intrinsics (spec/43_c_intrinsics.md R80 to R84): a call against the instruction it runs, and the values of b
that behave alike.

The idea is that a call and its instruction apply one element function: b fixes the call's amount, and the widening of
b into x[rs2], or the immediate, keeps the bits that fix the instruction's. -/

namespace Sys2Proof.Machine

/-! The amounts of b (R83). -/

theorem amountOfB_eq_mod (b : BitVec 32) : amountOfB b = b.toNat % 32 := by
  simp [amountOfB]

/-- b as the immediate of a macro has the amount that the call takes. -/
theorem immAmount_toNat (b : BitVec 32) : immAmount b.toNat = amountOfB b := (amountOfB_eq_mod b).symm

/-- The sign extension of b keeps its own bits. -/
theorem extractLsb'_widenB (b : BitVec 32) {k : Nat} (hk : k ≤ 32) :
    (widenB b).extractLsb' 0 k = b.extractLsb' 0 k := by
  apply BitVec.eq_of_getElem_eq
  intro j hj
  simp [widenB, BitVec.getElem_signExtend, show j < 64 by omega, show j < 32 by omega]

theorem regAmount_of_widenB {s : State} {r : Reg} {b : BitVec 32} (h : s.readReg r = widenB b) :
    s.regAmount r = amountOfB b := by
  rw [State.regAmount, h, extractLsb'_widenB b (by omega), amountOfB]

theorem signedAmount_of_widenB {s : State} {r : Reg} {b : BitVec 32} (h : s.readReg r = widenB b) :
    s.signedAmount r = signedAmountOfB b := by
  rw [State.signedAmount, h, extractLsb'_widenB b (by omega), signedAmountOfB]

theorem signedAmountOfB_congr {b b' : BitVec 32} (h : b.toNat % 64 = b'.toNat % 64) :
    signedAmountOfB b = signedAmountOfB b' := by
  have hbits : b.extractLsb' 0 6 = b'.extractLsb' 0 6 := BitVec.eq_of_toNat_eq (by simpa using h)
  rw [signedAmountOfB, hbits, signedAmountOfB]

/-! The instruction of a call (R82). -/

theorem withOperands_imm_eq_none_iff {m : Mnemonic} {rd rs1 : Reg} {n : Nat} :
    withOperands m rd rs1 (.imm n) = none ↔ takesImm m = false := by
  cases m <;> simp [withOperands, takesImm]

theorem withOperands_reg_eq_none_iff {m : Mnemonic} {rd rs1 r : Reg} :
    withOperands m rd rs1 (.reg r) = none ↔ takesImm m = true := by
  cases m <;> simp [withOperands, takesImm]

/-- Only a macro whose b is no immediate has no instruction (R83). -/
theorem intrinsicInstr_eq_none_iff {m : Mnemonic} {rd rs1 rs2 : Reg} {b : BitVec 32} :
    intrinsicInstr m rd rs1 rs2 b = none ↔ takesImm m = true ∧ 32 ≤ b.toNat := by
  cases hm : takesImm m
  case false => simp [intrinsicInstr, hm, withOperands_reg_eq_none_iff]
  case true => simp [intrinsicInstr, hm, withOperands_imm_eq_none_iff]

/-- The instruction of a call has the call's mnemonic and registers; its amount is b for a macro and x[rs2] for a
function. -/
theorem intrinsicInstr_eq_some_iff {m : Mnemonic} {rd rs1 rs2 : Reg} {b : BitVec 32} {i : Instr} :
    intrinsicInstr m rd rs1 rs2 b = some i ↔ i.mnemonic = m ∧ i.rd = rd ∧ i.rs1 = rs1 ∧
      (takesImm m = true ∧ b.toNat < 32 ∧ i.amount = .imm b.toNat ∨ takesImm m = false ∧ i.amount = .reg rs2) := by
  cases hm : takesImm m
  case false => simp [intrinsicInstr, hm, withOperands_eq_some_iff]
  case true =>
    simp only [intrinsicInstr, hm, if_true, Option.ite_none_right_eq_some, withOperands_eq_some_iff, true_and,
      reduceCtorEq, false_and, or_false]
    tauto

/-! The call itself (R84). -/

/-- Handing OV through is saturating in no element. -/
theorem callLanes_eq_callSatLanes (f : Elem → Elem) (a : Word) (ov : Bool) :
    callLanes f a ov = callSatLanes (fun w => (f w, false)) a ov := by
  simp [callLanes, callSatLanes, lanes]

/-- A call and the instruction it runs apply the same element function. -/
theorem exec_and_intrinsicCall_same_lanes {m : Mnemonic} {rd rs1 rs2 : Reg} {b : BitVec 32} {i : Instr} {s : State}
    (hi : intrinsicInstr m rd rs1 rs2 b = some i) (hb : takesImm m = false → s.readReg rs2 = widenB b) :
    ∃ f, exec i s = satLaneOp f rd rs1 s ∧ ∀ a ov, intrinsicCall m a b ov = some (callSatLanes f a ov) := by
  obtain ⟨rfl, rfl, rfl, hamount⟩ := intrinsicInstr_eq_some_iff.1 hi
  cases i
  case kslli32 | slli32 | srai32 | srai32u | srli32 | srli32u =>
    obtain ⟨-, hlt, ⟨⟩⟩ | ⟨⟨⟩, -⟩ := hamount
    simp only [exec_kslli32, exec_slli32, exec_srai32, exec_srai32u, exec_srli32, exec_srli32u, immAmount_toNat,
      laneOp_eq_satLaneOp]
    exact ⟨_, rfl, fun a ov => by simp [intrinsicCall, Instr.mnemonic, hlt, callLanes_eq_callSatLanes]⟩
  case ksll32 | sll32 | sra32 | sra32u | srl32 | srl32u =>
    obtain ⟨⟨⟩, -⟩ | ⟨-, ⟨⟩⟩ := hamount
    simp only [exec_ksll32, exec_sll32, exec_sra32, exec_sra32u, exec_srl32, exec_srl32u,
      regAmount_of_widenB (hb rfl), laneOp_eq_satLaneOp]
    exact ⟨_, rfl, fun a ov => by simp [intrinsicCall, Instr.mnemonic, takesImm, callLanes_eq_callSatLanes]⟩
  case kslra32 | kslra32u =>
    obtain ⟨⟨⟩, -⟩ | ⟨-, ⟨⟩⟩ := hamount
    simp only [exec_kslra32, exec_kslra32u, signedAmount_of_widenB (hb rfl)]
    exact ⟨_, rfl, fun _ _ => rfl⟩

/-- The two KSLRA32 intrinsics take b as a signed amount and differ in the rounding u alone (R83). -/
theorem intrinsicCall_eq_kslraLane {m : Mnemonic} (hm : m ∈ [Mnemonic.kslra32, .kslra32u]) :
    ∃ u, ∀ a b ov,
      intrinsicCall m a b ov = some (callSatLanes (fun w => kslraLane w (signedAmountOfB b) u) a ov) := by
  simp only [List.mem_cons, List.not_mem_nil, or_false] at hm
  obtain rfl | rfl := hm
  · exact ⟨false, fun _ _ _ => rfl⟩
  · exact ⟨true, fun _ _ _ => rfl⟩

/-! The obligations of the intrinsics. -/

/-- Settles O55: one element function on x[rs1] = a gives both the call's pair and what the instruction writes. -/
theorem intrinsicCallRunsItsInstruction : Obligations.IntrinsicCallRunsItsInstruction := by
  refine ⟨fun m rd rs1 rs2 b i s hrd hi hb => ?_, fun _ _ _ _ _ => intrinsicInstr_eq_none_iff⟩
  obtain ⟨f, hexec, hcall⟩ := exec_and_intrinsicCall_same_lanes hi hb
  obtain ⟨t, ht, hread, hov⟩ := satLaneOp_of_readReg (f := f) hrd rfl rfl
  exact ⟨t, _, _, hexec.trans ht, hcall _ _, hread, hov⟩

/-- Settles O56: the call takes b through its low six bits only; as amounts these are -32, -31 and 0 for the three
values named, and O13 says what those amounts do. -/
theorem intrinsicAmountsActModulo64 : Obligations.IntrinsicAmountsActModulo64 := by
  intro m hm a ov
  obtain ⟨u, hcall⟩ := intrinsicCall_eq_kslraLane hm
  simp only [hcall]
  refine ⟨fun b b' h => ?congr, ?minus32, ?sixtyFour⟩
  case congr => rw [signedAmountOfB_congr h]
  case minus32 =>
    have h32 : signedAmountOfB (BitVec.ofInt 32 (-32)) = -32 := by decide
    have h31 : signedAmountOfB (BitVec.ofInt 32 (-31)) = -31 := by decide
    have hsame : ∀ w, kslraLane w (-32) u = kslraLane w (-31) u := fun w => by
      obtain ⟨-, -, h, -⟩ := kslraLaneChoosesByTheSign w u
      exact h
    simp only [h32, h31, hsame]
  case sixtyFour =>
    have h64 : signedAmountOfB 64#32 = 0 := by decide
    simp [h64, callSatLanes, pack_upper_lower]

end Sys2Proof.Machine
end

section
/-! Straight-line runs (spec/60_exceptions.md R100; spec/70_reset_and_hazards.md R116): a run goes on as long as it
meets an admitted word and has not reached END_PC.

The idea is that no step depends on what earlier ones computed: each moves pc by 4 and keeps IMEM and END_PC, so the
launch state alone fixes every address and every word the run meets. -/

namespace Sys2Proof.Machine

/-! Addresses on the way. -/

/-- The address k + 1 words after a is k words after the next pc. -/
theorem add_four_add_ofNat (a : Addr) (k : Nat) :
    a + 4#64 + BitVec.ofNat 64 (4 * k) = a + BitVec.ofNat 64 (4 * (k + 1)) := by
  rw [BitVec.add_assoc, Nat.mul_succ, Nat.add_comm, BitVec.ofNat_add]

/-- Offsets that fit in 64 bits lead to different addresses. -/
theorem add_ofNat_ne_of_lt (a : Addr) {m n : Nat} (hmn : m < n) (hn : n < 2 ^ 64) :
    a + BitVec.ofNat 64 m ≠ a + BitVec.ofNat 64 n := by
  rw [Ne, BitVec.add_right_inj, BitVec.toNat_eq, BitVec.toNat_ofNat, BitVec.toNat_ofNat,
    Nat.mod_eq_of_lt (hmn.trans hn), Nat.mod_eq_of_lt hn]
  exact hmn.ne

/-! Steps and runs that go on. -/

theorem step_of_pc_eq_endPc {s : State} (h : s.pc = s.endPc) : step s = .fault .endOfRun := by
  simp [step, h]

/-- A running state at an admitted word has a step. -/
theorem exists_step_next {s : State} (hs : s.Running)
    (hword : ∃ w i, s.imem.fetchWord s.pc = some w ∧ decodeWord w = some i) : ∃ t, step s = .next t := by
  obtain ⟨w, i, hw, hi⟩ := hword
  rw [step_of_decodeWord_some hs hw hi]
  exact everyInstructionAnswersANextState i s

/-- A run completes n steps when the n words from pc on are admitted and none of them stands at END_PC. -/
theorem exists_run_next {n : Nat} {s : State} (hpc : s.pc.toNat % 4 = 0)
    (hend : ∀ k < n, s.pc + BitVec.ofNat 64 (4 * k) ≠ s.endPc)
    (hwords : ∀ k < n, ∃ w i, s.imem.fetchWord (s.pc + BitVec.ofNat 64 (4 * k)) = some w ∧ decodeWord w = some i) :
    ∃ t, run n s = .next t := by
  induction n generalizing s with
  | zero => exact ⟨s, run_zero s⟩
  | succ n ih =>
    have hrunning : s.Running := ⟨by simpa using hend 0 n.succ_pos, hpc⟩
    obtain ⟨u, hu⟩ := exists_step_next hrunning (by simpa using hwords 0 n.succ_pos)
    obtain ⟨himem, hendPc⟩ := step_keeps_parameters hu
    have hat : ∀ k, u.pc + BitVec.ofNat 64 (4 * k) = s.pc + BitVec.ofNat 64 (4 * (k + 1)) := fun k => by
      rw [step_next_pc hu, add_four_add_ofNat]
    rw [run_succ_of_next hu]
    refine ih ?aligned (fun k hk => ?notAtEnd) fun k hk => ?admitted
    case aligned => rw [step_next_pc hu]; exact add_four_mod_four hpc
    case notAtEnd => rw [hat, hendPc]; exact hend (k + 1) (Nat.succ_lt_succ hk)
    case admitted => rw [hat, himem]; exact hwords (k + 1) (Nat.succ_lt_succ hk)

/-! The obligation of the straight line. -/

/-- Settles O52: k steps move pc by 4k, which is END_PC at k = n and, without a wrap, at no earlier k; so every earlier
state still runs. -/
theorem straightLineRunEndsAtEndPc : Obligations.StraightLineRunEndsAtEndPc := by
  rintro n s ⟨hpc, -, -⟩ hwrap hend hwords
  have hbefore : ∀ k < n, s.pc + BitVec.ofNat 64 (4 * k) ≠ s.endPc := fun k hk => by
    rw [hend]
    exact add_ofNat_ne_of_lt _ (by omega) (by omega)
  have hrun : ∀ k ≤ n, ∃ t, run k s = .next t ∧ t.pc = s.pc + BitVec.ofNat 64 (4 * k) ∧ t.endPc = s.endPc :=
    fun k hk => by
      obtain ⟨t, ht⟩ := exists_run_next hpc (fun j hj => hbefore j (hj.trans_le hk))
        fun j hj => hwords j (hj.trans_le hk)
      obtain ⟨-, htend, -, htpc⟩ := runKeepsImemAndCountsPc k s t ht
      exact ⟨t, ht, htpc, htend⟩
  constructor
  · obtain ⟨t, ht, htpc, htend⟩ := hrun n le_rfl
    have hat : t.pc = s.endPc := htpc.trans hend.symm
    exact ⟨t, ht, hat, step_of_pc_eq_endPc (hat.trans htend.symm)⟩
  · intro k hk
    obtain ⟨u, hu, hupc, -⟩ := hrun k hk.le
    exact ⟨u, hu, hupc ▸ hbefore k hk⟩

end Sys2Proof.Machine
end

section
/-! How a run stops (spec/70_reset_and_hazards.md R114 to R116): at END_PC, where the host observes the result, or
stuck at the first address outside IMEM before it.

The idea is that the step tests pc against END_PC before anything else, and every later branch answers another outcome;
so that one outcome tells exactly whether the state is final. -/

namespace Sys2Proof.Machine

/-! What the host observes. -/

theorem observe_of_pc_eq_endPc {s : State} (h : s.pc = s.endPc) : s.observe = some (s.x, s.ov) := if_pos h

theorem observe_of_pc_ne_endPc {s : State} (h : s.pc ≠ s.endPc) : s.observe = none := if_neg h

/-! Which state is final. -/

/-- Away from END_PC the step answers one of its other outcomes: misaligned, stuck, or those of a word that is there. -/
theorem step_ne_endOfRun_of_pc_ne_endPc {s : State} (hend : s.pc ≠ s.endPc) : step s ≠ .fault .endOfRun := by
  by_cases hpc : s.pc.toNat % 4 = 0
  case neg => simp [step_of_not_aligned hend hpc]
  case pos =>
    have hrunning : s.Running := ⟨hend, hpc⟩
    cases hw : s.imem.fetchWord s.pc with
    | none => simp [step_of_fetchWord_none hrunning hw]
    | some w => exact step_ne_fault_of_fetchWord_some hrunning hw _

theorem step_eq_endOfRun_iff {s : State} : step s = .fault .endOfRun ↔ s.pc = s.endPc :=
  ⟨not_imp_not.1 step_ne_endOfRun_of_pc_ne_endPc, step_of_pc_eq_endPc⟩

/-- A state whose step is stuck or refused is not final. -/
theorem pc_ne_endPc_of_stuck_or_refused {s : State}
    (h : (∃ p, step s = .fault (.stuck p)) ∨ (∃ r, step s = .refused r)) : s.pc ≠ s.endPc := by
  intro hat
  rw [step_of_pc_eq_endPc hat] at h
  obtain ⟨p, ⟨⟩⟩ | ⟨r, ⟨⟩⟩ := h

/-! The obligations of the stop. -/

/-- Settles O47: the step's outcome and the host's observation make the same test of pc against END_PC. -/
theorem runEndsExactlyAtEndPc : Obligations.RunEndsExactlyAtEndPc := fun _ =>
  ⟨step_eq_endOfRun_iff, observe_of_pc_eq_endPc, observe_of_pc_ne_endPc,
    fun h => observe_of_pc_ne_endPc (pc_ne_endPc_of_stuck_or_refused h)⟩

/-- Settles O53: the n admitted words carry the run to pc + 4n, with IMEM and END_PC as at the start; there it still
runs and the fetch finds no word. -/
theorem runIsStuckAtTheFirstHole : Obligations.RunIsStuckAtTheFirstHole := by
  intro n s hpc hend hwords hhole
  obtain ⟨t, ht⟩ := exists_run_next hpc (fun k hk => hend k hk.le) hwords
  obtain ⟨himem, htend, -, htpc⟩ := runKeepsImemAndCountsPc n s t ht
  have hrunning : t.Running := by
    refine ⟨by rw [htpc, htend]; exact hend n le_rfl, ?_⟩
    rw [htpc, BitVec.toNat_add, BitVec.toNat_ofNat]
    omega
  exact ⟨t, ht, htpc, step_of_fetchWord_none hrunning (by rw [himem, htpc]; exact hhole)⟩

end Sys2Proof.Machine
end
